-- ==== Sys2Proof/Word.lean ====
section
/-! DEFINITION. The words of the block: bytes (R9, bit 0 least significant, R8), 6-bit values (R13), the 24-bit command
word (R70) and the 4-bit status code (R31). -/

namespace Sys2Proof

/-- A byte, a symbol or a key byte: 8 bits, unsigned (R9). -/
abbrev Byte := BitVec 8

/-- A value 0..63 that a symbol stands for, or a mark (R13, R86, R87). -/
abbrev Value := BitVec 6

/-- A command word of format `C24` (R70, R71). -/
abbrev CmdWord := BitVec 24

/-- The contents of `STATUS` (R31). -/
abbrev StatusCode := BitVec 4

end Sys2Proof
end

