-- ==== Sys2Proof/Syntax.lean ====
section
/-! DEFINITION. The 14 commands of R73, one constructor per row of spec/opcode_table.json, with the operands that R72
gives each. A field that R72 marks ignored is no operand (R76); `IN`, `XCAND` and the draws are not part of the command
word (R70). -/

namespace Sys2Proof

/-- A command of the block (R73). -/
inductive Instr where
  /-- Install the alphabet in `IN` (R101). -/
  | setalpha
  /-- Shuffle the alphabet (R104). -/
  | shuffle
  /-- The value of the symbol `a` (R107). -/
  | valueof (a : Byte)
  /-- The symbol of the value `a`, which is below 64 (R108, R78). -/
  | symbolof (a : Byte)
  /-- Install the transform in `XCAND` (R122). -/
  | setxform
  /-- The installed `T` of the byte `a` under the key `b` (R126). -/
  | xfwd (a b : Byte)
  /-- The installed `I` of the byte `a` under the key `b` (R127). -/
  | xinv (a b : Byte)
  /-- Turn bluff mode on or off (R136). -/
  | setbluff (enabled : Bool)
  /-- Make the symbol `a` the fixed key (R138). -/
  | setkey (a : Byte)
  /-- Choose a key as the encoders do (R140). -/
  | nextkey
  /-- Encode `IN` in the general form (R153). -/
  | enc
  /-- Decode the general-form text `IN` (R161). -/
  | dec
  /-- Encode `IN` in the ASCII form (R178). -/
  | enca
  /-- Decode the ASCII-form text `IN` (R185). -/
  | deca
  deriving DecidableEq, Repr

end Sys2Proof
end

