-- ==== Sys2Proof/WellFormed.lean ====
section
/-! DEFINITION. Which terms of Instr stand for a command. R78 is the one condition the spec puts on an operand of a
command word: the value of `SYMBOLOF` is below 64. -/

namespace Sys2Proof

/-- `A[7:6] = 0` for `SYMBOLOF` (R78); every operand of every other command is legal (R72, R76). -/
def Instr.wellFormed : Instr → Bool
  | .symbolof a => decide (a.toNat < 64)
  | .setalpha | .shuffle | .valueof _ | .setxform | .xfwd _ _ | .xinv _ _ | .setbluff _ | .setkey _
  | .nextkey | .enc | .dec | .enca | .deca => true

end Sys2Proof
end

