-- ==== Sys2Proof/Decode.lean ====
section
/-! DEFINITION. The command decoder of R71 to R78, total on every 24-bit word and rejecting by name, and the encoder
written from the same table. -/

namespace Sys2Proof

/-- Why a word selects no command. -/
inductive DecodeError where
  /-- `op` is none of the 14 opcodes (R75). -/
  | undefinedOpcode (op : Byte)
  /-- `SYMBOLOF` with `A[7:6] != 0` (R78). -/
  | valueAbove63 (a : Byte)
  deriving DecidableEq, Repr

/-- Field `op`, bits 23:16 (R71). -/
def opField (w : CmdWord) : Byte := w.extractLsb' 16 8

/-- Field `A`, bits 15:8 (R71). -/
def aField (w : CmdWord) : Byte := w.extractLsb' 8 8

/-- Field `B`, bits 7:0 (R71). -/
def bField (w : CmdWord) : Byte := w.extractLsb' 0 8

/-- `A[0]`, bit 8 of the word: the enable bit of `SETBLUFF` (R72). -/
def enableBit (w : CmdWord) : Bool := w.getLsbD 8

/-- The command a word selects: `op` alone decides, except for `SYMBOLOF` (R73, R75, R76, R78). -/
def decode (w : CmdWord) : Except DecodeError Instr :=
  match (opField w).toNat with
  | 0x01 => .ok .setalpha
  | 0x02 => .ok .shuffle
  | 0x03 => .ok (.valueof (aField w))
  | 0x04 => if (aField w).toNat < 64 then .ok (.symbolof (aField w)) else .error (.valueAbove63 (aField w))
  | 0x10 => .ok .setxform
  | 0x11 => .ok (.xfwd (aField w) (bField w))
  | 0x12 => .ok (.xinv (aField w) (bField w))
  | 0x20 => .ok (.setbluff (enableBit w))
  | 0x21 => .ok (.setkey (aField w))
  | 0x22 => .ok .nextkey
  | 0x30 => .ok .enc
  | 0x31 => .ok .dec
  | 0x32 => .ok .enca
  | 0x33 => .ok .deca
  | _ => .error (.undefinedOpcode (opField w))

/-- The opcode of a command, the table of R73. -/
def Instr.opcode : Instr → Byte
  | .setalpha => 0x01
  | .shuffle => 0x02
  | .valueof _ => 0x03
  | .symbolof _ => 0x04
  | .setxform => 0x10
  | .xfwd _ _ => 0x11
  | .xinv _ _ => 0x12
  | .setbluff _ => 0x20
  | .setkey _ => 0x21
  | .nextkey => 0x22
  | .enc => 0x30
  | .dec => 0x31
  | .enca => 0x32
  | .deca => 0x33

/-- What a command puts in field `A` (R72); a field it ignores is 0 (R79: "Omitted byte operands are 0"). -/
def Instr.operandA : Instr → Byte
  | .valueof a | .symbolof a | .xfwd a _ | .xinv a _ | .setkey a => a
  | .setbluff enabled => if enabled then 0x01 else 0x00
  | .setalpha | .shuffle | .setxform | .nextkey | .enc | .dec | .enca | .deca => 0x00

/-- What a command puts in field `B` (R72); a field it ignores is 0 (R79). -/
def Instr.operandB : Instr → Byte
  | .xfwd _ b | .xinv _ b => b
  | .setalpha | .shuffle | .valueof _ | .symbolof _ | .setxform | .setbluff _ | .setkey _ | .nextkey
  | .enc | .dec | .enca | .deca => 0x00

/-- The word of a command: `op`, `A`, `B` in the fields of R71. -/
def encode (i : Instr) : CmdWord :=
  (i.opcode ++ i.operandA : BitVec 16) ++ i.operandB

/-- The 24-bit word whose bits are `w`, numbered as spec/opcode_table.json numbers them; the bits from `nbits` up are 0
(the word is presented whole, R54, R70, so there is no byte order to choose; log 12). -/
def tableWord (nbits w : Nat) : CmdWord := BitVec.ofNat 24 (w % 2 ^ nbits)

/-- The command the decoder reads from the word whose bits are `w`; none where it rejects. -/
def decodeTableWord (nbits w : Nat) : Option Instr :=
  match decode (tableWord nbits w) with
  | .ok i => some i
  | .error _ => none

end Sys2Proof
end

