-- ==== Sys2Proof/Config.lean ====
section
/-! DEFINITION. What an implementation fixes (R7): the constants the spec gives, and its three open parameters. A State
carries its parameters as plain data; the parameters of the machine that `State.reset` describes are constants with no
body, so no proof can see their values (log 4). The random source's answers beyond those already supplied are one more
constant with no body (log 3). -/

namespace Sys2Proof

/-- `GEN_GROUP` of R7: payload bytes of a general block. -/
def Config.genGroup : Nat := 3

/-- `ASC_GROUP` of R7: payload bytes of an ASCII block. -/
def Config.ascGroup : Nat := 6

/-- The size of `PROBE_DOMAIN` of R7: the transform checker probes the bytes 0..127. -/
def Config.probeDomain : Nat := 128

/-- The three open parameters of R7, fixed for the life of a machine. -/
structure Params where
  /-- `DEFAULT_ALPHABET`: the alphabet present after reset, or none (D7). -/
  defaultAlphabet : Option (Vector Byte 64)
  /-- `PROBE_KEY`: the key the transform checker probes with (D12). -/
  probeKey        : Byte
  /-- `MAX_LEN`: the longest `IN` a command accepts; `none` is the spec's "unbounded" (D27). A bound on what the host supplies
  (R34), which no command checks (log 9). -/
  maxLen          : Option Nat
  deriving DecidableEq, Repr

/-- The constraints the spec puts on the parameters: `PROBE_KEY mod 128 != 0` (R128) and a default alphabet of
pairwise distinct bytes (R232). -/
def Params.legal (p : Params) : Bool :=
  decide (p.probeKey.toNat % 128 ≠ 0) &&
    match p.defaultAlphabet with
    | some F => decide F.toList.Nodup
    | none => true

/-- A free choice of 64 bytes or none; `Config.defaultAlphabet` keeps it when the bytes are distinct. -/
opaque Config.alphabetCandidate : Option (Vector Byte 64)

/-- A free choice of one of the 254 bytes that R128 allows as probe key. -/
opaque Config.probeKeyIndex : Fin 254

/-- `MAX_LEN` of the machine `State.reset` describes (R7, D27). -/
opaque Config.maxLen : Option Nat

/-- The answers of the random source that nothing has supplied in advance: the number behind its k-th answer (U5,
log 3). -/
opaque Config.randomAnswer : Nat → Nat

/-- `DEFAULT_ALPHABET` of the machine `State.reset` describes: none, or any 64 distinct bytes (R7, R232). -/
def Config.defaultAlphabet : Option (Vector Byte 64) :=
  Config.alphabetCandidate.filter fun F => decide F.toList.Nodup

/-- The k-th byte, k < 254, among those that are not 0x00 and not 0x80: the legal probe keys of R128. -/
def Config.nthProbeKey (k : Nat) : Byte :=
  if k < 127 then BitVec.ofNat 8 (k + 1) else BitVec.ofNat 8 (k + 2)

/-- The parameters of the machine `State.reset` describes. -/
def Config.params : Params where
  defaultAlphabet := Config.defaultAlphabet
  probeKey := Config.nthProbeKey Config.probeKeyIndex.val
  maxLen := Config.maxLen

end Sys2Proof
end

