-- ==== Sys2Proof/Machine/Tables.lean ====
section
/-! DEFINITION. The lookup tables as data: `FWD` and `INV` (R23, R24, R50) with their reads, `RebuildInv` (R100), and the
function tables of a transform (R28), which are sparse tables in one canonical form (log 7). -/

namespace Sys2Proof.Machine

/-! ## FWD and INV -/

/-- The mark of an `INV` entry that stands for no value, SU's "sentinel −1" (R24). -/
def invalidMark : Byte := 0xFF

/-- `FWD[v]`; a 6-bit index never leaves the table (R51). -/
def readFwd (F : Vector Byte 64) (v : Value) : Byte := F[v.toNat]'(v.isLt)

/-- `INV[s]`; every byte is an index (R52). -/
def readInv (N : Vector Byte 256) (s : Byte) : Byte := N[s.toNat]'(s.isLt)

/-- `INV[s] != 0xFF`: the byte `s` is a symbol of the alphabet whose inverse table is `N` (R24, R52). -/
def isSymbol (N : Vector Byte 256) (s : Byte) : Bool := readInv N s != invalidMark

/-- The assignments `N[F[v]] = v` of R100 for the symbols of a list, whose first one has the value `v`. -/
def assignInv : List Byte → Nat → Vector Byte 256 → Vector Byte 256
  | [], _, N => N
  | s :: rest, v, N => assignInv rest (v + 1) (N.set s.toNat (BitVec.ofNat 8 v) s.isLt)

/-- `RebuildInv(F)` of R100: every entry the invalid mark, then `N[F[v]] = v` for `v` = 0..63. -/
def rebuildInv (F : Vector Byte 64) : Vector Byte 256 :=
  assignInv F.toList 0 (Vector.replicate 256 invalidMark)

/-- `swap F[i] and F[j]` of R104. -/
def swapEntries (F : Vector Byte 64) (i j : Nat) : Vector Byte 64 := F.swapIfInBounds i j

/-! ## Tables of a transform

A function (byte, key) -> byte has 65536 points; point (b, k) has the address `256 * k + b` ("two tables of 65536 bytes
indexed by (key, byte)", R28). A table lists the points where the function differs from the default `b xor k` (R121), by
strictly rising address. -/

/-- A sparse table of a function of a byte and a key byte. -/
abbrev ByteTable := List Host.Cell

/-- The address of the point (b, k). -/
def pointOf (b k : Byte) : Nat := 256 * k.toNat + b.toNat

/-- What an unlisted point reads as: the default transform `b xor k` (R121). -/
def unlistedPoint (a : Nat) : Byte := BitVec.ofNat 8 a ^^^ BitVec.ofNat 8 (a / 256)

/-- The table's byte at an address. -/
def readPoint : ByteTable → Nat → Byte
  | [], a => unlistedPoint a
  | (a', v) :: rest, a => if a' = a then v else readPoint rest a

/-- The table's function: its byte at the point (b, k). -/
def applyTable (t : ByteTable) (b k : Byte) : Byte := readPoint t (pointOf b k)

/-- The table with `v` at an address: an entry equal to what an unlisted point reads as is not listed. -/
def writePoint : ByteTable → Nat → Byte → ByteTable
  | [], a, v => if v = unlistedPoint a then [] else [(a, v)]
  | (a', v') :: rest, a, v =>
    if a < a' then (if v = unlistedPoint a then (a', v') :: rest else (a, v) :: (a', v') :: rest)
    else if a = a' then (if v = unlistedPoint a then rest else (a, v) :: rest)
    else (a', v') :: writePoint rest a v

/-- The canonical form from the address `lo` up: addresses rise strictly, lie below 65536, and no entry equals what an
unlisted point reads as. -/
def canonicalFrom : Nat → ByteTable → Bool
  | _, [] => true
  | lo, (a, v) :: rest => decide (lo ≤ a) && decide (a < 65536) && (v != unlistedPoint a) && canonicalFrom (a + 1) rest

/-- The canonical form of a table: equal functions are equal tables. -/
def ByteTable.wf (t : ByteTable) : Bool := canonicalFrom 0 t

/-- The entries of the table of `f` among the points `a`, `a + 1`, … (`n` of them). -/
def tablePoints (f : Byte → Byte → Byte) : Nat → Nat → ByteTable
  | 0, _ => []
  | n + 1, a =>
    if f (BitVec.ofNat 8 a) (BitVec.ofNat 8 (a / 256)) = unlistedPoint a then tablePoints f n (a + 1)
    else (a, f (BitVec.ofNat 8 a) (BitVec.ofNat 8 (a / 256))) :: tablePoints f n (a + 1)

/-- The table of any function of a byte and a key byte (R28): how a host hands over a candidate. -/
def tableOf (f : Byte → Byte → Byte) : ByteTable := tablePoints f 65536 0

/-- The table of the function that is `f` at the one key `k` and the default at every other key. -/
def tableOfAtKey (f : Byte → Byte → Byte) (k : Byte) : ByteTable := tablePoints f 256 (256 * k.toNat)

end Sys2Proof.Machine
end

