-- ==== Sys2Proof/Machine/State.lean ====
section
/-! DEFINITION. The state of one codec (10_state.md), the operands of the command in progress, the host's side of the
command port and the random source's answers; the reasons a step can stop; the error kinds of R201; reset (R39). -/

namespace Sys2Proof.Machine

/-- A transform: the pair (T, I) of R28, each function as its table (log 7). -/
structure Xform where
  /-- The table of `T`, SU's `transform(byte, key)`. -/
  fwdTable : ByteTable
  /-- The table of `I`, SU's `invert(byte, key)`. -/
  invTable : ByteTable
  deriving DecidableEq, Repr

/-- The default transform of R121: `T(b, k) = I(b, k) = b xor k`. -/
def Xform.default : Xform := ⟨[], []⟩

/-- One command as the host presents it: the command word with its side operands (R70). -/
structure Request where
  /-- The command word. -/
  word  : CmdWord
  /-- The sequence operand `IN` (R34). -/
  inp   : List Byte
  /-- The candidate transform `XCAND` (R35). -/
  xcand : Xform
  deriving DecidableEq, Repr

/-- The random source as a command sees it (R36, log 3): the answers already supplied, first one first, and the number of
draws made so far, which selects the free value used when none is supplied. -/
structure RandomSource where
  answers : List Nat
  drawn   : Nat
  deriving DecidableEq, Repr

/-- The error kinds of R201, which a command raises (R200, R204). They are results of a command, not stops of the machine. -/
inductive ErrorKind where
  | invalidAlphabet
  | unknownSymbol
  | invalidKey
  | invalidTransform
  | malformedMessage
  | outOfRangeByte
  | illegalCommand
  | transformRangeEscape
  deriving DecidableEq, Repr

/-- The result register of a command, which an error of the command clears (R204 c). -/
inductive ResultReg where
  /-- The command has no result register. -/
  | none
  /-- The command's result goes to `RES`. -/
  | res
  /-- The command's result goes to `OUT`. -/
  | out
  deriving DecidableEq, Repr

/-- The reasons a step faults. There are none: every error the spec describes is a result of the command (R204 to R206),
so this type has no constructor and no command of the model raises a fault. -/
inductive Fault where
  deriving DecidableEq, Repr

/-- The reasons a step is refused: none is in use, since every command has a meaning and completes (R245). -/
inductive Refusal where
  /-- Raised by `exec` for a command that has no meaning yet. Safe. No arm raises it. -/
  | notModelled (mnemonic : String)
  deriving DecidableEq, Repr

/-- The state of the machine. -/
structure State where
  /-- The parameters of R7, fixed for the life of the machine; no command writes them (log 4). -/
  params     : Params
  /-- `FWD`, the forward table (R23). -/
  fwd        : Vector Byte 64
  /-- `INV`, the inverse table (R24). -/
  inv        : Vector Byte 256
  /-- `ALPHA_VALID` (R25). -/
  alphaValid : Bool
  /-- `XFORM`, the installed transform (R28). -/
  xform      : Xform
  /-- `BLUFF` (R29). -/
  bluff      : Bool
  /-- `FIXED_KEY` (R30). -/
  fixedKey   : Byte
  /-- `STATUS`, the outcome of the last command (R31). -/
  status     : StatusCode
  /-- `RES`, the scalar result (R32). -/
  res        : Byte
  /-- `OUT`, the sequence result (R33). -/
  out        : List Byte
  /-- `IN`, the sequence operand of the command in progress (R34, log 11). -/
  inp        : List Byte
  /-- `XCAND`, the candidate operand of the command in progress (R35, log 11). -/
  xcand      : Xform
  /-- The model's own: commands the host has presented and the block has not yet taken (R21, log 1). -/
  pending    : List Request
  /-- The model's own: the random source's answers (R36, log 3). -/
  rnd        : RandomSource
  deriving DecidableEq, Repr

/-- The state after reset of a machine with the parameters `p`: the table of R39. `FWD` and `INV` with no default alphabet
are unspecified there: DESIGN CHOICE 0x00 and 0xFF (log 5). The operands, the port and the random source are the model's
own fields: DESIGN CHOICE empty (logs 1, 3, 11). -/
def State.resetOf (p : Params) : State where
  params     := p
  fwd        := match p.defaultAlphabet with
    | some F => F
    | none => Vector.replicate 64 0x00
  inv        := match p.defaultAlphabet with
    | some F => rebuildInv F
    | none => Vector.replicate 256 invalidMark
  alphaValid := p.defaultAlphabet.isSome
  xform      := Xform.default
  bluff      := false
  fixedKey   := match p.defaultAlphabet with
    | some F => readFwd F 0
    | none => 0x00
  status     := 0
  res        := 0x00
  out        := []
  inp        := []
  xcand      := Xform.default
  pending    := []
  rnd        := ⟨[], 0⟩

/-- The machine right after reset (R39, R230), for parameters no proof can see (log 4). -/
def State.reset : State := State.resetOf Config.params

end Sys2Proof.Machine
end

