-- ==== Sys2Proof/Machine/Flags.lean ====
section
/-! DEFINITION. The codes of `STATUS`, the block's only flag-like state (R31, R201). -/

namespace Sys2Proof.Machine

/-- The code of `OK` (R201). -/
def statusOk : StatusCode := 0

/-- `code(Kind)`: the code of an error kind, the table of R201. -/
def errorCode : ErrorKind → StatusCode
  | .invalidAlphabet => 1
  | .unknownSymbol => 2
  | .invalidKey => 3
  | .invalidTransform => 4
  | .malformedMessage => 5
  | .outOfRangeByte => 6
  | .illegalCommand => 7
  | .transformRangeEscape => 8

end Sys2Proof.Machine
end

