-- ==== Sys2Proof/Machine/Operands.lean ====
section
/-! DEFINITION. The operands of the commands and the bit fields the codecs take from them: the transform's functions, the
6-bit and one-bit parts of a transformed value (R85, R86), the sign fold (R154), the alphabet
of a sequence (R101), the transform check (R122). -/

namespace Sys2Proof.Machine

/-- `T(b, k)` of a transform (R28). -/
def Xform.T (x : Xform) (b k : Byte) : Byte := applyTable x.fwdTable b k

/-- `I(b, k)` of a transform (R28). -/
def Xform.I (x : Xform) (b k : Byte) : Byte := applyTable x.invTable b k

/-- `n[5:0]` (R85). -/
def lowSix (n : Byte) : Value := n.extractLsb' 0 6

/-- `n[6]`, the bit the mark carries (R86, R87). -/
def bitSix (n : Byte) : Bool := n.getLsbD 6

/-- `b[7]`, the sign bit of a byte (R8, R9). -/
def signBit (b : Byte) : Bool := b.getLsbD 7

/-- The sign fold of R154, and the sign restoration of R161: the 8-bit complement when the sign is set. -/
def foldSign (negative : Bool) (b : Byte) : Byte := if negative then ~~~b else b

/-- A 6-bit value with bit `i` or-ed with `b` (R37: the mark is "built with bitwise OR per slot"). -/
def setMarkBit (mark : Value) (i : Nat) (b : Bool) : Value :=
  if b then mark ||| (BitVec.ofNat 6 1 <<< i) else mark

/-- `IN` as the 64 entries of a forward table: none if its length is not 64 or a symbol occurs twice (R101). -/
def alphabetOf (l : List Byte) : Option (Vector Byte 64) :=
  if h : l.length = 64 then
    if l.Nodup then some ⟨l.toArray, by simpa using h⟩ else none
  else none

/-- The probe of R122 at one byte: `I'(T'(b, p), p) = b`. -/
def probeHolds (x : Xform) (p b : Byte) : Bool := x.I (x.T b p) p == b

/-- The probes of R122 at the `n` bytes `b`, `b + 1`, …. -/
def probesHold (x : Xform) (p : Byte) : Nat → Nat → Bool
  | 0, _ => true
  | n + 1, b => probeHolds x p (BitVec.ofNat 8 b) && probesHold x p n (b + 1)

/-- The check of R122: the candidate undoes itself at the probe key on the probe domain 0..127. -/
def transformAccepted (x : Xform) (p : Byte) : Bool := probesHold x p Config.probeDomain 0

end Sys2Proof.Machine
end

