-- ==== Sys2Proof/Machine/Ops.lean ====
section
/-! DEFINITION. The shared operations over State: success and its result registers, taking an error (R204; there is no
return from one, R205: the next command simply runs), drawing (R36), key selection (R140), installing an alphabet (R101),
the shuffle loop (R104), and taking and retiring a command of the port (R21, R34). -/

namespace Sys2Proof.Machine

/-- The outcome of a command or a step. -/
abbrev Result := Host.Outcome State Fault Refusal

/-! ## Results and errors -/

/-- `STATUS <- OK`, of a command without a result register. -/
def State.succeed (s : State) : State := { s with status := statusOk }

/-- `RES <- v`, `STATUS <- OK` (R32). -/
def State.succeedRes (s : State) (v : Byte) : State := { s with res := v, status := statusOk }

/-- `OUT <- l`, `STATUS <- OK` (R33). -/
def State.succeedOut (s : State) (l : List Byte) : State := { s with out := l, status := statusOk }

/-- R204 (c): the result register the command would have written is cleared. -/
def clearResult (r : ResultReg) (s : State) : State :=
  match r with
  | .none => s
  | .res => { s with res := 0x00 }
  | .out => { s with out := [] }

/-- `raise Kind` (R204): the command ends, its result register is cleared, `STATUS` gets the kind's code, nothing else
changes and control goes nowhere. -/
def raise (k : ErrorKind) (r : ResultReg) (s : State) : State :=
  { clearResult r s with status := errorCode k }

/-! ## The random source and the key -/

/-- `draw(n)` for `n ≥ 1` (R36): the next supplied answer or, when none is supplied, a free value; always below `n`
(log 3). -/
def draw (n : Nat) (r : RandomSource) : Nat × RandomSource :=
  match r.answers with
  | j :: rest => (j % n, ⟨rest, r.drawn + 1⟩)
  | [] => (Config.randomAnswer r.drawn % n, ⟨[], r.drawn + 1⟩)

/-- `SelectKey()` of R140: the fixed key, which must be a symbol, or in bluff mode the symbol of one `draw(64)`; with the
state after the draw. -/
def selectKey (s : State) : Except ErrorKind (Byte × State) :=
  if s.bluff then
    .ok (readFwd s.fwd (BitVec.ofNat 6 (draw 64 s.rnd).1), { s with rnd := (draw 64 s.rnd).2 })
  else if isSymbol s.inv s.fixedKey then .ok (s.fixedKey, s)
  else .error .invalidKey

/-! ## The alphabet -/

/-- The table writes of `SETALPHA` and `SHUFFLE` (R101, R104): `FWD` and the rebuilt `INV` in one step. -/
def installAlphabet (F : Vector Byte 64) (s : State) : State :=
  { s with fwd := F, inv := rebuildInv F }

/-- The loop of R104 for `i` from the given index down to 1: `j <- draw(i + 1)`, swap `F[i]` and `F[j]`. -/
def shuffleFrom : Nat → Vector Byte 64 → RandomSource → Vector Byte 64 × RandomSource
  | 0, F, r => (F, r)
  | i + 1, F, r =>
    shuffleFrom i (swapEntries F (i + 1) (draw (i + 2) r).1) (draw (i + 2) r).2

/-! ## The command port -/

/-- The command the block takes next and the state in which it runs: its operands at the ports `IN` and `XCAND` (R21, R34,
R35). None when the host has presented nothing. -/
def takeRequest (s : State) : Option (CmdWord × State) :=
  match s.pending with
  | [] => none
  | q :: rest => some (q.word, { s with pending := rest, inp := q.inp, xcand := q.xcand })

/-- The end of a command: its operands are not kept (R34; log 11). -/
def retire (s : State) : State := { s with inp := [], xcand := Xform.default }

/-- The end of a command that has an outcome. -/
def retireResult : Result → Result
  | .next t => .next (retire t)
  | .fault f => .fault f
  | .refused r => .refused r

/-- An illegal command raises `IllegalCommand`, and only `STATUS` changes (R75, R78, R214). -/
def illegalCommand (s : State) : State := raise .illegalCommand .none s

end Sys2Proof.Machine
end

