-- ==== Sys2Proof/Machine/Alphabet.lean ====
section
/-! DEFINITION. The Alphabet commands (40_alphabet_lut.md): SETALPHA, SHUFFLE, VALUEOF, SYMBOLOF. -/

namespace Sys2Proof.Machine

/-- `SETALPHA` (R101). An `IN` of any length but 64 raises `InvalidAlphabet`, whatever `MAX_LEN` is (R207, D24). -/
def execSetalpha (s : State) : Result :=
  .next
    (match alphabetOf s.inp with
    | none => raise .invalidAlphabet .none s
    | some F => { installAlphabet F s with alphaValid := true }.succeed)

/-- `SHUFFLE` (R104). -/
def execShuffle (s : State) : Result :=
  .next
    (if s.alphaValid then
      { (installAlphabet (shuffleFrom 63 s.fwd s.rnd).1 s).succeed with rnd := (shuffleFrom 63 s.fwd s.rnd).2 }
    else raise .invalidAlphabet .none s)

/-- `VALUEOF` (R107). -/
def execValueof (a : Byte) (s : State) : Result :=
  .next
    (if !s.alphaValid then raise .invalidAlphabet .res s
    else if isSymbol s.inv a then s.succeedRes (readInv s.inv a)
    else raise .unknownSymbol .res s)

/-- `SYMBOLOF` (R108). An operand above 63 is an illegal command (R78): the decoder never yields it, and this meaning
answers it as R78 says (log 13). -/
def execSymbolof (a : Byte) (s : State) : Result :=
  .next
    (if 64 ≤ a.toNat then illegalCommand s
    else if !s.alphaValid then raise .invalidAlphabet .res s
    else s.succeedRes (readFwd s.fwd (lowSix a)))

end Sys2Proof.Machine
end

