-- ==== Sys2Proof/Machine/Codec.lean ====
section
/-! DEFINITION. The codec engine that the general form (R82, R153, R161) and the ASCII form (R83, R178, R185) share: how a
group of bytes becomes a mark symbol and payload symbols, and how a block becomes bytes again. -/

namespace Sys2Proof.Machine

/-- The two message layouts (R82, R83). -/
inductive Form where
  | general
  | ascii
  deriving DecidableEq, Repr

/-- Payload slots of a full block (R82, R83). -/
def slots : Form → Nat
  | .general => Config.genGroup
  | .ascii => Config.ascGroup

/-- The mark bit that carries `n[6]` of slot `k` (R86, R87). -/
def rangeBit : Form → Nat → Nat
  | .general, k => 2 * k
  | .ascii, k => k

/-- The sign flag of a byte: only the general form has one (R154, R175). -/
def signFlag : Form → Byte → Bool
  | .general, b => signBit b
  | .ascii, _ => false

/-- The mark bits of slot `k` (R86: `2k` and `2k + 1`; R87: `k`). -/
def markSlot (form : Form) (k : Nat) (range sign : Bool) (mark : Value) : Value :=
  match form with
  | .general => setMarkBit (setMarkBit mark (2 * k) range) (2 * k + 1) sign
  | .ascii => setMarkBit mark k range

/-- The transformed value `n` of the byte `b` in slot `k` (R153, R155, R178): the sign fold, `T` under the message's key, and
the slot index. -/
def transformed (form : Form) (T : Byte → Byte → Byte) (key : Byte) (k : Nat) (b : Byte) : Byte :=
  T (foldSign (signFlag form b) b) key ^^^ BitVec.ofNat 8 k

/-- The bytes of a list in pieces of `n`, the last one possibly shorter; `fuel` bounds the number of pieces. -/
def piecesFuel (n : Nat) : Nat → List Byte → List (List Byte)
  | 0, _ => []
  | _ + 1, [] => []
  | fuel + 1, b :: l => (b :: l).take n :: piecesFuel n fuel ((b :: l).drop n)

/-- The groups of an input, or the blocks of a message body (R13, R82, R83). -/
def pieces (n : Nat) (l : List Byte) : List (List Byte) := piecesFuel n l.length l

/-! ## Encoding -/

/-- The mark and the payload symbols of the bytes of a group from slot `k` on; none if some `n` has bit 7 set (R156,
R180). -/
def encodeSlots (form : Form) (F : Vector Byte 64) (T : Byte → Byte → Byte) (key : Byte) :
    Nat → List Byte → Option (Value × List Byte)
  | _, [] => some (0, [])
  | k, b :: rest =>
    if signBit (transformed form T key k b) then none
    else
      match encodeSlots form F T key (k + 1) rest with
      | none => none
      | some (mark, payload) =>
        some (markSlot form k (bitSix (transformed form T key k b)) (signFlag form b) mark,
          readFwd F (lowSix (transformed form T key k b)) :: payload)

/-- One block: the mark symbol, then the payload symbols (R82, R83, R85 to R87). -/
def encodeGroup (form : Form) (F : Vector Byte 64) (T : Byte → Byte → Byte) (key : Byte) (g : List Byte) :
    Option (List Byte) :=
  match encodeSlots form F T key 0 g with
  | none => none
  | some (mark, payload) => some (readFwd F mark :: payload)

/-- The blocks of a list of groups. -/
def encodeGroups (form : Form) (F : Vector Byte 64) (T : Byte → Byte → Byte) (key : Byte) :
    List (List Byte) → Option (List Byte)
  | [] => some []
  | g :: rest =>
    match encodeGroup form F T key g, encodeGroups form F T key rest with
    | some block, some blocks => some (block ++ blocks)
    | _, _ => none

/-- The message of a non-empty input: the key symbol, then the blocks (R82, R83, R84); none for
`TransformRangeEscape`. -/
def encodeMessage (form : Form) (F : Vector Byte 64) (T : Byte → Byte → Byte) (key : Byte) (l : List Byte) :
    Option (List Byte) :=
  match encodeGroups form F T key (pieces (slots form) l) with
  | none => none
  | some blocks => some (key :: blocks)

/-- The end of an encoder once its checks that need no key have passed: key selection, then the message (R141, R150, R176,
R204). -/
def encodeSelected (form : Form) (s : State) : State :=
  match selectKey s with
  | .error k => raise k .out s
  | .ok (key, t) =>
    match encodeMessage form t.fwd t.xform.T key t.inp with
    | none => raise .transformRangeEscape .out t
    | some message => t.succeedOut message

/-! ## Decoding -/

/-- The transformed value rebuilt from a payload value and its mark bit (R161): `v + (mark bit << 6)`. -/
def rebuilt (v : Byte) (range : Bool) : Byte := v + (if range then 0x40 else 0x00)

/-- The sign flag of slot `k` in a mark (R161: bit `2k + 1`; none in the ASCII form, R185). -/
def markSign : Form → Byte → Nat → Bool
  | .general, mark, k => mark.getLsbD (2 * k + 1)
  | .ascii, _, _ => false

/-- The byte of slot `k` of a block with mark `mark` and payload value `v` (R161, R185). -/
def decodeSlot (form : Form) (I : Byte → Byte → Byte) (key mark : Byte) (k : Nat) (v : Byte) : Byte :=
  foldSign (markSign form mark k)
    (I (rebuilt v (mark.getLsbD (rangeBit form k)) ^^^ BitVec.ofNat 8 k) key)

/-- The bytes of the payload symbols of a block from slot `k` on. -/
def decodeSlots (form : Form) (N : Vector Byte 256) (I : Byte → Byte → Byte) (key mark : Byte) :
    Nat → List Byte → List Byte
  | _, [] => []
  | k, s :: rest => decodeSlot form I key mark k (readInv N s) :: decodeSlots form N I key mark (k + 1) rest

/-- The bytes of a block: its first symbol is the mark. -/
def decodeBlock (form : Form) (N : Vector Byte 256) (I : Byte → Byte → Byte) (key : Byte) : List Byte → List Byte
  | [] => []
  | m :: payload => decodeSlots form N I key (readInv N m) 0 payload

/-- The bytes of a list of blocks. -/
def decodeBlocks (form : Form) (N : Vector Byte 256) (I : Byte → Byte → Byte) (key : Byte) :
    List (List Byte) → List Byte
  | [] => []
  | block :: rest => decodeBlock form N I key block ++ decodeBlocks form N I key rest

/-- The bytes of a text: position 0 is the key, then blocks of one mark and up to `slots` payload symbols (R161, R185). -/
def decodeMessage (form : Form) (N : Vector Byte 256) (I : Byte → Byte → Byte) : List Byte → List Byte
  | [] => []
  | key :: body => decodeBlocks form N I key (pieces (slots form + 1) body)

/-- `MalformedMessage`: the last block would be a mark with no payload (R88, R211). -/
def malformed (form : Form) (M : Nat) : Bool := decide ((M - 1) % (slots form + 1) = 1)

/-- A decoder on a non-empty text, with the checks in the order of R160 and R184. -/
def decodeChecked (form : Form) (s : State) : State :=
  if !s.alphaValid then raise .invalidAlphabet .out s
  else if malformed form s.inp.length then raise .malformedMessage .out s
  else if s.inp.all (isSymbol s.inv) then s.succeedOut (decodeMessage form s.inv s.xform.I s.inp)
  else raise .unknownSymbol .out s

end Sys2Proof.Machine
end

