-- ==== Sys2Proof/Machine/AsciiCodec.lean ====
section
/-! DEFINITION. The AsciiCodec commands (44_ascii_codec.md): ENCA, DECA. -/

namespace Sys2Proof.Machine

/-- `ENCA` (R178), checks in the order of R176: the range of the whole input (R179) comes before the key. -/
def execEnca (s : State) : Result :=
  .next
    (if s.inp.isEmpty then s.succeedOut []
    else if !s.alphaValid then raise .invalidAlphabet .out s
    else if s.inp.any signBit then raise .outOfRangeByte .out s
    else encodeSelected .ascii s)

/-- `DECA` (R185), checks in the order of R184. -/
def execDeca (s : State) : Result :=
  .next (if s.inp.isEmpty then s.succeedOut [] else decodeChecked .ascii s)

end Sys2Proof.Machine
end

