-- ==== Sys2Proof/Machine/ByteTransform.lean ====
section
/-! DEFINITION. The ByteTransform commands (41_bytexform.md): SETXFORM, XFWD, XINV. -/

namespace Sys2Proof.Machine

/-- `SETXFORM` (R122). -/
def execSetxform (s : State) : Result :=
  .next
    (if transformAccepted s.xcand s.params.probeKey then { s with xform := s.xcand }.succeed
    else raise .invalidTransform .none s)

/-- `XFWD` (R126). -/
def execXfwd (a b : Byte) (s : State) : Result := .next (s.succeedRes (s.xform.T a b))

/-- `XINV` (R127). -/
def execXinv (a b : Byte) (s : State) : Result := .next (s.succeedRes (s.xform.I a b))

end Sys2Proof.Machine
end

