-- ==== Sys2Proof/Machine/GeneralCodec.lean ====
section
/-! DEFINITION. The GeneralCodec commands (43_general_codec.md): ENC, DEC. -/

namespace Sys2Proof.Machine

/-- `ENC` (R153), checks in the order of R150. -/
def execEnc (s : State) : Result :=
  .next
    (if s.inp.isEmpty then s.succeedOut []
    else if !s.alphaValid then raise .invalidAlphabet .out s
    else encodeSelected .general s)

/-- `DEC` (R161), checks in the order of R160. -/
def execDec (s : State) : Result :=
  .next (if s.inp.isEmpty then s.succeedOut [] else decodeChecked .general s)

end Sys2Proof.Machine
end

