-- ==== Sys2Proof/Machine/KeySelector.lean ====
section
/-! DEFINITION. The KeySelector commands (42_key_selector.md): SETBLUFF, SETKEY, NEXTKEY. -/

namespace Sys2Proof.Machine

/-- `SETBLUFF` (R136). -/
def execSetbluff (enabled : Bool) (s : State) : Result := .next { s with bluff := enabled }.succeed

/-- `SETKEY` (R138). -/
def execSetkey (a : Byte) (s : State) : Result :=
  .next
    (if !s.alphaValid then raise .invalidAlphabet .none s
    else if isSymbol s.inv a then { s with fixedKey := a }.succeed
    else raise .invalidKey .none s)

/-- `NEXTKEY` (R140). -/
def execNextkey (s : State) : Result :=
  .next
    (if !s.alphaValid then raise .invalidAlphabet .res s
    else
      match selectKey s with
      | .error k => raise k .res s
      | .ok (key, t) => t.succeedRes key)

end Sys2Proof.Machine
end

