-- ==== Sys2Proof/Machine/Dispatch.lean ====
section
/-! DEFINITION. One arm per command of R73. -/

namespace Sys2Proof.Machine

def exec (i : Instr) (s : State) : Host.Outcome State Fault Refusal :=
  match i with
  -- Alphabet
  | .setalpha => Sys2Proof.Machine.execSetalpha s
  | .shuffle => Sys2Proof.Machine.execShuffle s
  | .valueof a => Sys2Proof.Machine.execValueof a s
  | .symbolof a => Sys2Proof.Machine.execSymbolof a s
  -- ByteTransform
  | .setxform => Sys2Proof.Machine.execSetxform s
  | .xfwd a b => Sys2Proof.Machine.execXfwd a b s
  | .xinv a b => Sys2Proof.Machine.execXinv a b s
  -- KeySelector
  | .setbluff enabled => Sys2Proof.Machine.execSetbluff enabled s
  | .setkey a => Sys2Proof.Machine.execSetkey a s
  | .nextkey => Sys2Proof.Machine.execNextkey s
  -- GeneralCodec
  | .enc => Sys2Proof.Machine.execEnc s
  | .dec => Sys2Proof.Machine.execDec s
  -- AsciiCodec
  | .enca => Sys2Proof.Machine.execEnca s
  | .deca => Sys2Proof.Machine.execDeca s

end Sys2Proof.Machine
end

