-- ==== Sys2Proof/Machine/Step.lean ====
section
/-! DEFINITION. One step: the block takes the next command of the port, decodes it, runs it to completion and retires it
(R21, R58, R74). With no command presented nothing changes (log 2). -/

namespace Sys2Proof.Machine

/-- One step of the block. -/
def step (s : State) : Host.Outcome State Fault Refusal :=
  match takeRequest s with
  | none => .next s
  | some (w, t) =>
    match decode w with
    | .error _ => .next (retire (illegalCommand t))
    | .ok i => retireResult (exec i t)

/-- The state with the command word whose bits are `w` presented at the port as the next command, with the side operands `IN`
empty and `XCAND` the default transform (log 1). -/
def State.withFetchWord (s : State) (nbits w : Nat) : State :=
  { s with pending := ⟨tableWord nbits w, [], Xform.default⟩ :: s.pending }

end Sys2Proof.Machine
end

