-- ==== Sys2Proof/Machine/Assembly.lean ====
section
/-! DEFINITION. The textual form of a command (R79) and the SU names accepted in its place (R80), above the characters of
the text: a mnemonic and its byte operands. The side operands (`IN`, `XCAND`) are not part of the word (R70). -/

namespace Sys2Proof.Machine

/-- The mnemonic of a command (R73). -/
def mnemonicOf : Instr → String
  | .setalpha => "SETALPHA"
  | .shuffle => "SHUFFLE"
  | .valueof _ => "VALUEOF"
  | .symbolof _ => "SYMBOLOF"
  | .setxform => "SETXFORM"
  | .xfwd _ _ => "XFWD"
  | .xinv _ _ => "XINV"
  | .setbluff _ => "SETBLUFF"
  | .setkey _ => "SETKEY"
  | .nextkey => "NEXTKEY"
  | .enc => "ENC"
  | .dec => "DEC"
  | .enca => "ENCA"
  | .deca => "DECA"

/-- The opcode of a mnemonic (R73); none for any other text. -/
def opcodeOfMnemonic (m : String) : Option Byte :=
  ([("SETALPHA", 0x01), ("SHUFFLE", 0x02), ("VALUEOF", 0x03), ("SYMBOLOF", 0x04), ("SETXFORM", 0x10), ("XFWD", 0x11),
    ("XINV", 0x12), ("SETBLUFF", 0x20), ("SETKEY", 0x21), ("NEXTKEY", 0x22), ("ENC", 0x30), ("DEC", 0x31), ("ENCA", 0x32),
    ("DECA", 0x33)] : List (String × Byte)).lookup m

/-- A byte operand of the textual form (R79). -/
inductive OperandText where
  /-- Hexadecimal or decimal digits. -/
  | number (b : Byte)
  /-- A character between single quotes, "meaning its ASCII code". -/
  | quoted (c : Char)
  deriving DecidableEq, Repr

/-- The byte an operand stands for (R79). -/
def operandByte : OperandText → Byte
  | .number b => b
  | .quoted c => BitVec.ofNat 8 c.toNat

/-- The word of a mnemonic and its byte operands in the order `A`, `B`; omitted operands are 0 (R79). -/
def assemble (m : String) (operands : List OperandText) : Option CmdWord :=
  match opcodeOfMnemonic m, operands with
  | some op, [] => some ((op ++ 0x00#8 : BitVec 16) ++ 0x00#8)
  | some op, [a] => some ((op ++ operandByte a : BitVec 16) ++ 0x00#8)
  | some op, [a, b] => some ((op ++ operandByte a : BitVec 16) ++ operandByte b)
  | _, _ => none

/-- The SU names of the operations, accepted as pseudo-commands (R80). -/
inductive SuName where
  | install
  | setAlphabet
  | shuffle
  | shuffleAlphabet
  | valueOf (s : Byte)
  | symbolOf (v : Byte)
  | setTransform
  | transform (b k : Byte)
  | invert (b k : Byte)
  | setBluff (e : Byte)
  | setFixedKey (s : Byte)
  | nextKey
  | encode
  | decode
  | encodeAscii
  | decodeAscii
  deriving DecidableEq, Repr

/-- The one command each SU name expands to (R80). -/
def expandSuName : SuName → Instr
  | .install | .setAlphabet => .setalpha
  | .shuffle | .shuffleAlphabet => .shuffle
  | .valueOf s => .valueof s
  | .symbolOf v => .symbolof v
  | .setTransform => .setxform
  | .transform b k => .xfwd b k
  | .invert b k => .xinv b k
  | .setBluff e => .setbluff (e.getLsbD 0)
  | .setFixedKey s => .setkey s
  | .nextKey => .nextkey
  | .encode => .enc
  | .decode => .dec
  | .encodeAscii => .enca
  | .decodeAscii => .deca

end Sys2Proof.Machine
end

