-- ==== Sys2Proof/Safety.lean ====
section
/-! DEFINITION. The terms claims use: the invariants of the block's state, the properties the source asks of the block (R14),
and what counts as a safe run. -/

namespace Sys2Proof.Machine

/-- The alphabet invariant of R26: while an alphabet is installed, the entries of `FWD` are pairwise distinct, `INV` sends each
back to its value, and every other byte is marked invalid. -/
structure AlphabetInv (s : State) : Prop where
  distinct : s.alphaValid = true → s.fwd.toList.Nodup
  inverse  : s.alphaValid = true → ∀ v : Value, readInv s.inv (readFwd s.fwd v) = v.setWidth 8
  foreign  : s.alphaValid = true → ∀ b : Byte, b ∉ s.fwd.toList → readInv s.inv b = invalidMark

/-- The probe of R122 holds of a transform at a key, for every byte of the probe domain 0..127. -/
def UndoesOnDomain (x : Xform) (k : Byte) : Prop := ∀ b : Byte, b.toNat < 128 → x.I (x.T b k) k = b

/-- The legal values of `XFORM` (R38): the installed transform has passed the check of R122 at the probe key. -/
def XformAdmitted (s : State) : Prop := UndoesOnDomain s.xform s.params.probeKey

/-- Both tables of a transform are in canonical form (log 7). -/
def Xform.wf (x : Xform) : Bool := x.fwdTable.wf && x.invTable.wf

/-- Every transform the state holds is in canonical form. -/
structure TablesCanonical (s : State) : Prop where
  xform   : s.xform.wf = true
  xcand   : s.xcand.wf = true
  pending : ∀ q ∈ s.pending, q.xcand.wf = true

/-- `STATUS` holds one of the codes of R201 (R38). -/
def StatusLegal (s : State) : Prop := s.status.toNat ≤ 8

/-- `IN` has a length that commands accept: at most `MAX_LEN` (R7). -/
def InputAccepted (p : Params) (l : List Byte) : Prop := ∀ m : Nat, p.maxLen = some m → l.length ≤ m

/-- What the host owes the block (R34): the `IN` of every command it presents is at most `MAX_LEN` long (log 9). -/
def RequestsFit (s : State) : Prop := ∀ q ∈ s.pending, InputAccepted s.params q.inp

/-- `OUT` is within its capacity `MAX_LEN + ceil(MAX_LEN/3) + 1` (R33, R53). -/
def OutFits (s : State) : Prop :=
  ∀ m : Nat, s.params.maxLen = some m → s.out.length ≤ m + (m + 2) / 3 + 1

/-- The parameters meet the constraints of R128 and R232. -/
def ParamsLegal (s : State) : Prop := s.params.legal = true

/-- The invariant of the block. -/
structure Inv (s : State) : Prop where
  alphabet  : AlphabetInv s
  xform     : XformAdmitted s
  canonical : TablesCanonical s
  status    : StatusLegal s
  requests  : RequestsFit s
  out       : OutFits s
  params    : ParamsLegal s

/-! ## The properties the source asks of the block (R14) -/

/-- The length formulas of R157 and R181, with the empty case of R152 and R177: the length of the message of `L` bytes in
groups of `group`. -/
def messageLength (group L : Nat) : Nat := if L = 0 then 0 else L + (L + group - 1) / group + 1

/-- Round trip (R166 for ENC and DEC, R190 for ENCA and DECA) of the input of a state: the decoder, in any later state with
the same alphabet and transform, gives the input back, if the transform undoes itself on 0..127 at
the message's key. The empty input needs no condition. -/
def RoundTrips (encoder decoder : Instr) (s : State) : Prop :=
  ∀ t u : State, exec encoder s = .next t → t.status = statusOk → u.inp = t.out →
    (s.inp ≠ [] → AlphabetInv s ∧ u.fwd = t.fwd ∧ u.inv = t.inv ∧ u.alphaValid = t.alphaValid ∧ u.xform = t.xform ∧
      UndoesOnDomain s.xform (t.out.getD 0 0)) →
    exec decoder u = .next { u with out := s.inp, status := statusOk }

/-- Alphabet bijection (R112): `INV[FWD[v]] = v` for every value, and `FWD[INV[s]] = s` for every symbol. -/
def AlphabetBijection (s : State) : Prop :=
  (∀ v : Value, readInv s.inv (readFwd s.fwd v) = v.setWidth 8) ∧
  ∀ b ∈ s.fwd.toList, readFwd s.fwd (lowSix (readInv s.inv b)) = b

/-- Transform validation (R124): `SETXFORM` accepts the candidate if and only if it undoes itself on the probe domain at the
probe key. -/
def TransformValidation (s : State) : Prop :=
  ∃ t, exec .setxform s = .next t ∧ (t.status = statusOk ↔ UndoesOnDomain s.xcand s.params.probeKey)

/-- Bluff variability (R144): for each answer `j` of the draw, ENC gives a message that begins with `FWD[j]` and that DEC maps
back to the input, if the transform undoes itself and stays below 128 at that key. -/
def BluffVariability (s : State) : Prop :=
  ∀ (j : Value) (rest : List Nat), s.rnd.answers = j.toNat :: rest → UndoesOnDomain s.xform (readFwd s.fwd j) →
    (∀ b : Byte, b.toNat < 128 → (s.xform.T b (readFwd s.fwd j)).toNat < 128) →
    ∃ t, exec .enc s = .next t ∧ t.status = statusOk ∧ t.out[0]? = some (readFwd s.fwd j) ∧
      t.rnd = ⟨rest, s.rnd.drawn + 1⟩ ∧
      exec .dec { t with inp := t.out } = .next { t with inp := t.out, out := s.inp }

/-! ## Safe runs -/

/-- The state is not the end of a command that met the case the source leaves undefined (R156, R206, U1). -/
def Safe (s : State) : Prop := s.status ≠ errorCode .transformRangeEscape

/-- A run of `n` steps that counts: every step answers a next state, and no state on the way is the result of
`TransformRangeEscape`, which is never final (R206, U1; log 8). -/
def SafeRun : Nat → State → Prop
  | 0, s => Safe s
  | n + 1, s =>
    Safe s ∧
      match step s with
      | .next t => SafeRun n t
      | .fault _ => False
      | .refused _ => False

end Sys2Proof.Machine
end

