-- ==== Sys2Proof/Certificates/Slice0/Obligations.lean ====
section
/-! DEFINITION. The statements about the block, each a Prop. The vocabulary of a statement that is not the model's own stands
first, under Sys2Proof.Claim: it is written from the spec's rules, not from the meanings. -/

open Sys2Proof Sys2Proof.Machine

/-! ## Vocabulary -/

namespace Sys2Proof.Claim

/-- The spec's `ceil(a / b)` (R10). -/
def ceilDiv (a b : Nat) : Nat := (a + b - 1) / b

/-- The commands whose result goes to `RES` (R32). -/
def WritesRes : Instr → Prop
  | .valueof _ | .symbolof _ | .nextkey | .xfwd _ _ | .xinv _ _ => True
  | .setalpha | .shuffle | .setxform | .setbluff _ | .setkey _ | .enc | .dec | .enca | .deca => False

/-- The commands whose result goes to `OUT` (R33). -/
def WritesOut : Instr → Prop
  | .enc | .dec | .enca | .deca => True
  | .setalpha | .shuffle | .valueof _ | .symbolof _ | .setxform | .xfwd _ _ | .xinv _ _ | .setbluff _ | .setkey _
  | .nextkey => False

/-- One draw of `n` (R36): it consumes one supplied answer, and a supplied answer within range is the answer. -/
def OneDraw (n : Nat) (before : RandomSource) (j : Nat) (after : RandomSource) : Prop :=
  j < n ∧ after.drawn = before.drawn + 1 ∧ after.answers = before.answers.tail ∧
    ∀ a rest, before.answers = a :: rest → a < n → j = a

/-- The key `SelectKey()` returns and the random source after it (R140): with bluff off the fixed key and no draw, with bluff
on the symbol of one `draw(64)`. -/
def KeyChosen (s : State) (key : Byte) (r : RandomSource) : Prop :=
  (s.bluff = false ∧ key = s.fixedKey ∧ r = s.rnd) ∨
  (s.bluff = true ∧ ∃ j : Value, key = readFwd s.fwd j ∧ OneDraw 64 s.rnd j.toNat r)

/-- The sign fold of R154. -/
def fold (b : Byte) : Byte := if b.getLsbD 7 then ~~~b else b

/-- The transformed value of the byte at position `p` of a general-form input (R153, R155). -/
def generalValue (T : Byte → Byte → Byte) (key : Byte) (l : List Byte) (p : Nat) : Byte :=
  T (fold (l.getD p 0)) key ^^^ BitVec.ofNat 8 (p % 3)

/-- The transformed value of the byte at position `p` of an ASCII-form input (R178). -/
def asciiValue (T : Byte → Byte → Byte) (key : Byte) (l : List Byte) (p : Nat) : Byte :=
  T (l.getD p 0) key ^^^ BitVec.ofNat 8 (p % 6)

/-- What stands at every position of the general-form message of a non-empty input (R82, R84 to R86, R153, R157). -/
def GeneralLayout (F : Vector Byte 64) (T : Byte → Byte → Byte) (key : Byte) (l out : List Byte) : Prop :=
  out.length = messageLength Config.genGroup l.length ∧
  out[0]? = some key ∧
  (∀ p, p < l.length → out[2 + 4 * (p / 3) + p % 3]? =
    some (readFwd F ((generalValue T key l p).extractLsb' 0 6))) ∧
  (∀ g, g < ceilDiv l.length 3 → ∃ mark : Value, out[1 + 4 * g]? = some (readFwd F mark) ∧
    ∀ k, k < 3 →
      (3 * g + k < l.length → mark.getLsbD (2 * k) = (generalValue T key l (3 * g + k)).getLsbD 6 ∧
        mark.getLsbD (2 * k + 1) = (l.getD (3 * g + k) 0).getLsbD 7) ∧
      (l.length ≤ 3 * g + k → mark.getLsbD (2 * k) = false ∧ mark.getLsbD (2 * k + 1) = false))

/-- What stands at every position of the ASCII-form message of a non-empty input (R83 to R85, R87, R178, R181). -/
def AsciiLayout (F : Vector Byte 64) (T : Byte → Byte → Byte) (key : Byte) (l out : List Byte) : Prop :=
  out.length = messageLength Config.ascGroup l.length ∧
  out[0]? = some key ∧
  (∀ p, p < l.length → out[2 + 7 * (p / 6) + p % 6]? =
    some (readFwd F ((asciiValue T key l p).extractLsb' 0 6))) ∧
  (∀ g, g < ceilDiv l.length 6 → ∃ mark : Value, out[1 + 7 * g]? = some (readFwd F mark) ∧
    ∀ k, k < 6 →
      (6 * g + k < l.length → mark.getLsbD k = (asciiValue T key l (6 * g + k)).getLsbD 6) ∧
      (l.length ≤ 6 * g + k → mark.getLsbD k = false))

/-- The value of the symbol at position `p` of a text. -/
def valueAt (N : Vector Byte 256) (text : List Byte) (p : Nat) : Byte := readInv N (text.getD p 0)

/-- The byte a general-form text gives at position `p` (R161). -/
def generalByte (N : Vector Byte 256) (I : Byte → Byte → Byte) (text : List Byte) (p : Nat) : Byte :=
  let mark := valueAt N text (1 + 4 * (p / 3))
  let n := valueAt N text (2 + 4 * (p / 3) + p % 3) + (if mark.getLsbD (2 * (p % 3)) then 0x40 else 0x00)
  let b := I (n ^^^ BitVec.ofNat 8 (p % 3)) (text.getD 0 0)
  if mark.getLsbD (2 * (p % 3) + 1) then ~~~b else b

/-- The byte an ASCII-form text gives at position `p` (R185). -/
def asciiByte (N : Vector Byte 256) (I : Byte → Byte → Byte) (text : List Byte) (p : Nat) : Byte :=
  let mark := valueAt N text (1 + 7 * (p / 6))
  let n := valueAt N text (2 + 7 * (p / 6) + p % 6) + (if mark.getLsbD (p % 6) then 0x40 else 0x00)
  I (n ^^^ BitVec.ofNat 8 (p % 6)) (text.getD 0 0)

/-- The swap of the positions `i` and `j` of a table of 64 entries. -/
def swapAt (i j : Nat) : Equiv.Perm (Fin 64) := Equiv.swap (Fin.ofNat 64 i) (Fin.ofNat 64 j)

/-- The swaps of R104 for the 63 drawn answers, the one for `i = 63` first: where each entry of the shuffled table comes
from. -/
def shuffleOrder (draws : List Nat) : Equiv.Perm (Fin 64) :=
  ((List.range 63).map fun m => swapAt (63 - m) (draws.getD m 0)).prod

/-- The word of three fields (R71). -/
def word (op a b : Byte) : CmdWord := (op ++ a : BitVec 16) ++ b

/-- The 14 opcodes of R73. -/
def opcodes : List Byte := [0x01, 0x02, 0x03, 0x04, 0x10, 0x11, 0x12, 0x20, 0x21, 0x22, 0x30, 0x31, 0x32, 0x33]

/-- A word that selects no command: its opcode is none of the 14, or it is `SYMBOLOF` with `A[7:6] != 0` (R75, R78). -/
def IllegalWord (w : CmdWord) : Prop :=
  w.extractLsb' 16 8 ∉ opcodes ∨ (w.extractLsb' 16 8 = 0x04 ∧ w.extractLsb' 14 2 ≠ 0)

/-- The commands of R61 that write no configuration and draw nothing in the state `s`. -/
def ReadOnly (s : State) : Instr → Prop
  | .valueof _ | .symbolof _ | .xfwd _ _ | .xinv _ _ | .dec | .deca => True
  | .enc | .enca | .nextkey => s.bluff = false
  | .setalpha | .shuffle | .setxform | .setbluff _ | .setkey _ => False

end Sys2Proof.Claim

open Sys2Proof.Claim

/-! ## Commands and their words -/

/-- R71 to R73: no bit of a command's word is lost. The encoder's zeros in ignored fields are the model's choice, after R79
(log 12). -/
def Obligations.DecodeReturnsEncodedCommand : Prop :=
  ∀ i : Instr, i.wellFormed = true → decode (encode i) = .ok i

/-- R76: a field that R72 marks ignored may hold any bits (the commands without operands ignore `A` and `B`, those with one
operand ignore `B`, and `SETBLUFF` looks at `A[0]` alone), and `op` alone says whether a word selects a command and which one,
except for `SYMBOLOF`. -/
def Obligations.DecodeIgnoresUnusedFields : Prop :=
  ∀ op a b a' b' : Byte,
    (op ∈ [0x01, 0x02, 0x10, 0x22, 0x30, 0x31, 0x32, 0x33] → decode (word op a b) = decode (word op a' b')) ∧
    (op ∈ [0x03, 0x04, 0x21] → decode (word op a b) = decode (word op a b')) ∧
    (op = 0x20 → a.getLsbD 0 = a'.getLsbD 0 → decode (word op a b) = decode (word op a' b')) ∧
    (op ≠ 0x04 → ∀ i, decode (word op a b) = .ok i → ∃ i', decode (word op a' b') = .ok i' ∧ mnemonicOf i' = mnemonicOf i)

/-- R73, R75, R78: the words that select no command are exactly those with another opcode and `SYMBOLOF` of a value above
63. -/
def Obligations.IllegalWordsAreExactlyThose : Prop :=
  ∀ w : CmdWord, (∃ e, decode w = .error e) ↔ IllegalWord w

/-- Words of spec/95_test_vectors.md (section 2, and program P4 command 6 of section 8 for `SHUFFLE`) and of R79; the two illegal
ones rest on R75 and R78. -/
def Obligations.SampleWordsDecode : Prop :=
  decode 0x01FFFF = .ok .setalpha ∧ decode 0x020000 = .ok .shuffle ∧ decode 0x036800 = .ok (.valueof 0x68) ∧
  decode 0x043F55 = .ok (.symbolof 0x3F) ∧ decode 0x044000 = .error (.valueAbove63 0x40) ∧
  decode 0x117F41 = .ok (.xfwd 0x7F 0x41) ∧ decode 0x20FE00 = .ok (.setbluff false) ∧
  decode 0x20FF00 = .ok (.setbluff true) ∧ decode 0x214100 = .ok (.setkey 0x41) ∧ decode 0x320000 = .ok .enca ∧
  decode 0xFF0000 = .error (.undefinedOpcode 0xFF)

/-- R79: the mnemonic of a command and its operands assemble to a word the decoder reads as that command. Stated for
commands with both operand fields given, the ignored ones included. -/
def Obligations.AssembledCommandDecodes : Prop :=
  ∀ i : Instr, i.wellFormed = true → ∃ w,
    assemble (mnemonicOf i) [.number i.operandA, .number i.operandB] = some w ∧ decode w = .ok i

/-! ## Steps -/

/-- A step runs the decoded command: when the next request's word decodes to `i`, step is `exec i` in the state whose
operands are the request's, with the request taken from the port and the operands dropped after it (R21, R34, R58; the port is
the model's form of the host, logs 1 and 11). -/
def Obligations.StepRunsDecodedCommand : Prop :=
  ∀ (s : State) (q : Request) (rest : List Request) (i : Instr), s.pending = q :: rest → decode q.word = .ok i →
    step s =
      match exec i { s with pending := rest, inp := q.inp, xcand := q.xcand } with
      | .next t => .next { t with inp := [], xcand := Xform.default }
      | .fault f => .fault f
      | .refused r => .refused r

/-- A command completes in one step and takes exactly one request, in the host's order (R58). -/
def Obligations.StepTakesOneRequest : Prop :=
  ∀ s t : State, step s = .next t → t.pending = s.pending.tail

/-- With no request at the port a step changes nothing: the model's choice (log 2). -/
def Obligations.IdlePortChangesNothing : Prop :=
  ∀ s : State, s.pending = [] → step s = .next s

/-- R214: an illegal command changes only `STATUS`. That the request leaves the port and no operand is kept is the port's part
(logs 1, 11). -/
def Obligations.IllegalCommandChangesOnlyStatus : Prop :=
  ∀ (s : State) (q : Request) (rest : List Request), s.pending = q :: rest → IllegalWord q.word →
    step s = .next { s with pending := rest, inp := [], xcand := Xform.default, status := 7 }

/-- Every command completes with a legal status in every state, on every input, and no command ever stops (R245: "In the model
every command is one step and always completes"; that it does so for a codec's `IN` longer than `MAX_LEN` is log 9). -/
def Obligations.EveryCommandCompletes : Prop :=
  ∀ (i : Instr) (s : State), ∃ t, exec i s = .next t ∧ t.status.toNat ≤ 8 ∧ t.params = s.params

/-- `MAX_LEN` bounds what the host supplies and changes no result: a command ends in the same state whatever `MAX_LEN` is, also
when its `IN` is longer. Of `SETALPHA` R101 and R207 say so (a length other than 64, longer too, is `InvalidAlphabet`); of the
codecs with an `IN` longer than `MAX_LEN` it is log 9 (DEDUCED). -/
def Obligations.MaxLenChangesNoResult : Prop :=
  ∀ (i : Instr) (s : State) (bound : Option Nat),
    ∃ t, exec i s = .next t ∧
      exec i { s with params := { s.params with maxLen := bound } } =
        .next { t with params := { t.params with maxLen := bound } }

/-! ## Reset -/

/-- R39: the state after reset, for every value of the parameters. Where R39 leaves the tables unspecified (no default
alphabet), so does this statement. -/
def Obligations.ResetStateFollowsTable : Prop :=
  State.reset = State.resetOf Config.params ∧
  ∀ p : Params, let s := State.resetOf p
    (∀ b k, s.xform.T b k = b ^^^ k ∧ s.xform.I b k = b ^^^ k) ∧
    s.bluff = false ∧ s.status = 0 ∧ s.res = 0x00 ∧ s.out = [] ∧
    (p.defaultAlphabet = none → s.alphaValid = false ∧ s.fixedKey = 0x00) ∧
    (∀ F, p.defaultAlphabet = some F → F.toList.Nodup → s.alphaValid = true ∧ s.fwd = F ∧ s.fixedKey = readFwd F 0 ∧
      (∀ v : Value, readInv s.inv (readFwd F v) = v.setWidth 8) ∧
      (∀ b : Byte, b ∉ F.toList → readInv s.inv b = 0xFF))

/-- The invariant of the block holds after reset, for all legal parameters and for the machine `State.reset` describes. -/
def Obligations.ResetMeetsInvariant : Prop :=
  (∀ p : Params, p.legal = true → Inv (State.resetOf p)) ∧ Inv State.reset

/-! ## Invariants of every step -/

/-- R26: every command preserves the alphabet invariant. -/
def Obligations.StepKeepsAlphabetInvariant : Prop :=
  ∀ s t : State, AlphabetInv s → step s = .next t → AlphabetInv t

/-- R122, R38: the installed transform has always passed the check at the probe key on 0..127. -/
def Obligations.StepKeepsTransformAdmitted : Prop :=
  ∀ s t : State, XformAdmitted s → step s = .next t → XformAdmitted t

/-- R33, R53: `OUT` stays within its capacity `MAX_LEN + ceil(MAX_LEN/3) + 1`, while the host presents no `IN` longer than `MAX_LEN`
(R34, log 9): a step keeps the host's side of that as well. -/
def Obligations.StepKeepsOutWithinCapacity : Prop :=
  ∀ s t : State, OutFits s → RequestsFit s → step s = .next t → OutFits t ∧ RequestsFit t

/-- The whole invariant of the block is kept by every step. -/
def Obligations.StepKeepsInvariant : Prop :=
  ∀ s t : State, Inv s → step s = .next t → Inv t

/-- R201: "Codes 9..15 are never written"; a step that runs a command leaves a code of the table. -/
def Obligations.StatusIsAlwaysOneOfTheCodes : Prop :=
  ∀ s t : State, s.pending ≠ [] → step s = .next t → t.status.toNat ≤ 8

/-- R25: `ALPHA_VALID` is never cleared. The parameters never change (R7, log 4). -/
def Obligations.AlphaValidIsNeverCleared : Prop :=
  ∀ s t : State, step s = .next t → (s.alphaValid = true → t.alphaValid = true) ∧ t.params = s.params

/-! ## What a command may change -/

/-- The access matrix of R41: each command leaves everything unchanged that the matrix does not let it write. The operands, the
port and the parameters are never written. -/
def Obligations.CommandsWriteOnlyTheirColumns : Prop :=
  ∀ (i : Instr) (s t : State), exec i s = .next t →
    (i ≠ .setalpha → i ≠ .shuffle → t.fwd = s.fwd ∧ t.inv = s.inv) ∧
    (i ≠ .setalpha → t.alphaValid = s.alphaValid) ∧
    (i ≠ .setxform → t.xform = s.xform) ∧
    ((∀ e, i ≠ .setbluff e) → t.bluff = s.bluff) ∧
    ((∀ a, i ≠ .setkey a) → t.fixedKey = s.fixedKey) ∧
    (¬ WritesRes i → t.res = s.res) ∧
    (¬ WritesOut i → t.out = s.out) ∧
    (i ≠ .shuffle → i ≠ .nextkey → i ≠ .enc → i ≠ .enca → t.rnd = s.rnd) ∧
    t.params = s.params ∧ t.inp = s.inp ∧ t.xcand = s.xcand ∧ t.pending = s.pending

/-- R204: after an error no configuration has changed, the command's own result register is cleared and the other one is as
before, and nothing was drawn, except the one draw of a bluff-mode encoder that ends in `TransformRangeEscape`. -/
def Obligations.ErrorsLeaveConfigurationIntact : Prop :=
  ∀ (i : Instr) (s t : State), i.wellFormed = true → exec i s = .next t → t.status ≠ 0 →
    t.fwd = s.fwd ∧ t.inv = s.inv ∧ t.alphaValid = s.alphaValid ∧ t.xform = s.xform ∧ t.bluff = s.bluff ∧
    t.fixedKey = s.fixedKey ∧
    (WritesRes i → t.res = 0x00) ∧ (¬ WritesRes i → t.res = s.res) ∧
    (WritesOut i → t.out = []) ∧ (¬ WritesOut i → t.out = s.out) ∧
    (t.rnd = s.rnd ∨ (t.status = 8 ∧ s.bluff = true ∧ ∃ j, OneDraw 64 s.rnd j t.rnd))

/-- R25, U11: while no alphabet is installed no command but `SETALPHA` depends on the contents of the tables. -/
def Obligations.TablesUnreadWithoutAlphabet : Prop :=
  ∀ (i : Instr) (s t : State) (F : Vector Byte 64) (N : Vector Byte 256), i ≠ .setalpha → s.alphaValid = false →
    exec i s = .next t → exec i { s with fwd := F, inv := N } = .next { t with fwd := F, inv := N }

/-- R61: commands that write no configuration and draw nothing may run in either order: the result of one does not depend on
the other having run before it. -/
def Obligations.ReadOnlyCommandsDoNotInterfere : Prop :=
  ∀ (i j : Instr) (s t u : State) (l : List Byte), i.wellFormed = true → ReadOnly s i → ReadOnly s j →
    exec j s = .next t → exec i { s with inp := l } = .next u →
    ∃ v, exec i { t with inp := l } = .next v ∧ v.status = u.status ∧ (WritesRes i → v.res = u.res) ∧
      (WritesOut i → v.out = u.out)

/-! ## Which errors a command ends in -/

/-- R207: the causes of `InvalidAlphabet`, and no other. -/
def Obligations.InvalidAlphabetCauses : Prop :=
  ∀ (i : Instr) (s t : State), i.wellFormed = true → exec i s = .next t →
    (t.status = 1 ↔
      (i = .setalpha ∧ (s.inp.length ≠ 64 ∨ ¬ s.inp.Nodup)) ∨
      (s.alphaValid = false ∧
        (i = .shuffle ∨ (∃ a, i = .valueof a) ∨ (∃ a, i = .symbolof a) ∨ (∃ a, i = .setkey a) ∨ i = .nextkey ∨
          (WritesOut i ∧ s.inp ≠ []))))

/-- R208, R211, R212: the causes of `UnknownSymbol`, `MalformedMessage` and `OutOfRangeByte`, and no other, with the priority
of R215: each needs an alphabet, and a text of a bad shape is not searched for foreign bytes. -/
def Obligations.DataErrorCauses : Prop :=
  ∀ (i : Instr) (s t : State), i.wellFormed = true → exec i s = .next t →
    (t.status = 2 ↔ s.alphaValid = true ∧
      ((∃ a, i = .valueof a ∧ readInv s.inv a = 0xFF) ∨
        ((∃ b ∈ s.inp, readInv s.inv b = 0xFF) ∧
          ((i = .dec ∧ (s.inp.length - 1) % 4 ≠ 1) ∨ (i = .deca ∧ (s.inp.length - 1) % 7 ≠ 1))))) ∧
    (t.status = 5 ↔ s.alphaValid = true ∧
      ((i = .dec ∧ (s.inp.length - 1) % 4 = 1) ∨ (i = .deca ∧ (s.inp.length - 1) % 7 = 1))) ∧
    (t.status = 6 ↔ s.alphaValid = true ∧ i = .enca ∧ ∃ b ∈ s.inp, 128 ≤ b.toNat)

/-- R209, R210: the causes of `InvalidKey` and `InvalidTransform`, and no other, with the priority of R215; a rejected transform
leaves the previous one installed. -/
def Obligations.ConfigurationErrorCauses : Prop :=
  ∀ (i : Instr) (s t : State), i.wellFormed = true → exec i s = .next t →
    (t.status = 3 ↔ s.alphaValid = true ∧
      ((∃ a, i = .setkey a ∧ readInv s.inv a = 0xFF) ∨
        (s.bluff = false ∧ readInv s.inv s.fixedKey = 0xFF ∧
          (i = .nextkey ∨ (i = .enc ∧ s.inp ≠ []) ∨
            (i = .enca ∧ s.inp ≠ [] ∧ ∀ b ∈ s.inp, b.toNat < 128))))) ∧
    (t.status = 4 ↔ i = .setxform ∧
      ∃ b : Byte, b.toNat < 128 ∧ s.xcand.I (s.xcand.T b s.params.probeKey) s.params.probeKey ≠ b) ∧
    (t.status = 4 → t.xform = s.xform)

/-! ## Alphabet commands -/

/-- R101: `SETALPHA` (opcode 0x01) installs 64 distinct symbols, both tables and the valid bit together, and otherwise raises
`InvalidAlphabet` with everything as before: an `IN` of any other length, shorter or longer, and whatever `MAX_LEN` is. -/
def Obligations.SetalphaFollowsRule : Prop :=
  (∀ a b : Byte, decode (word 0x01 a b) = .ok .setalpha) ∧
  ∀ s : State,
    (s.inp.length = 64 → s.inp.Nodup →
      ∃ F N, exec .setalpha s = .next { s with fwd := F, inv := N, alphaValid := true, status := 0 } ∧
        F.toList = s.inp ∧ (∀ v : Value, readInv N (readFwd F v) = v.setWidth 8) ∧
        (∀ b : Byte, b ∉ s.inp → readInv N b = 0xFF)) ∧
    (s.inp.length ≠ 64 ∨ ¬ s.inp.Nodup → exec .setalpha s = .next { s with status := 1 })

/-- R102: after a successful `SETALPHA` a byte that is not in the new alphabet is unmapped, whatever the previous alphabet
was: `VALUEOF` of it raises `UnknownSymbol`. -/
def Obligations.OldSymbolsAreUnmapped : Prop :=
  ∀ (s t : State) (b : Byte), exec .setalpha s = .next t → t.status = 0 → b ∉ s.inp →
    exec (.valueof b) t = .next { t with res := 0x00, status := 2 }

/-- R104: `SHUFFLE` (opcode 0x02) swaps `F[i]` and `F[j]` for `i` = 63 down to 1 with the drawn `j`, rebuilds `INV`, and makes 63
draws; with no alphabet it raises `InvalidAlphabet` and draws nothing. Here the 63 answers are supplied, each within its
range; entry `x` of the new table is the entry of the old one that the swaps bring there. -/
def Obligations.ShuffleAppliesDrawnSwaps : Prop :=
  (∀ a b : Byte, decode (word 0x02 a b) = .ok .shuffle) ∧
  (∀ s : State, s.alphaValid = false → exec .shuffle s = .next { s with status := 1 }) ∧
  ∀ (s : State) (draws rest : List Nat), s.alphaValid = true → s.fwd.toList.Nodup → draws.length = 63 →
    (∀ m, m < 63 → draws.getD m 0 < 64 - m) → s.rnd.answers = draws ++ rest →
    ∃ F N, exec .shuffle s =
        .next { s with fwd := F, inv := N, rnd := ⟨rest, s.rnd.drawn + 63⟩, status := 0 } ∧
      (∀ x : Fin 64, F[x] = s.fwd[shuffleOrder draws x]) ∧
      (∀ v : Value, readInv N (readFwd F v) = v.setWidth 8) ∧
      (∀ b : Byte, b ∉ s.fwd.toList → readInv N b = 0xFF)

/-- R104: whatever the random source answers, `SHUFFLE` permutes the same 64 symbols, makes 63 draws and changes nothing
else. -/
def Obligations.ShufflePermutesSymbols : Prop :=
  ∀ s : State, s.alphaValid = true →
    ∃ F N r, exec .shuffle s = .next { s with fwd := F, inv := N, rnd := r, status := 0 } ∧
      F.toList.Perm s.fwd.toList ∧ r.drawn = s.rnd.drawn + 63 ∧ r.answers = s.rnd.answers.drop 63

/-- R104: every one of the 64! orders of the symbols is the result of some answers of the random source. -/
def Obligations.ShuffleReachesEveryOrder : Prop :=
  ∀ (s : State) (F : Vector Byte 64), s.alphaValid = true → F.toList.Perm s.fwd.toList →
    ∃ draws : List Nat, draws.length = 63 ∧ (∀ m, m < 63 → draws.getD m 0 < 64 - m) ∧
      ∃ t, exec .shuffle { s with rnd := ⟨draws, s.rnd.drawn⟩ } = .next t ∧ t.fwd = F ∧ t.status = 0

/-- R107: `VALUEOF` (opcode 0x03, symbol in `A`). -/
def Obligations.ValueofFollowsRule : Prop :=
  (∀ a b : Byte, decode (word 0x03 a b) = .ok (.valueof a)) ∧
  ∀ (s : State) (a : Byte),
    (s.alphaValid = false → exec (.valueof a) s = .next { s with res := 0x00, status := 1 }) ∧
    (s.alphaValid = true → readInv s.inv a = 0xFF → exec (.valueof a) s = .next { s with res := 0x00, status := 2 }) ∧
    (s.alphaValid = true → readInv s.inv a ≠ 0xFF →
      exec (.valueof a) s = .next { s with res := readInv s.inv a, status := 0 })

/-- R108, R78: `SYMBOLOF` (opcode 0x04), for a value below 64; a word with `A[7:6] != 0` is no `SYMBOLOF` but an illegal command.
That the meaning of an ill-formed term answers so as well is log 13. -/
def Obligations.SymbolofFollowsRule : Prop :=
  (∀ a b : Byte, (a.toNat < 64 → decode (word 0x04 a b) = .ok (.symbolof a)) ∧
    (64 ≤ a.toNat → decode (word 0x04 a b) = .error (.valueAbove63 a))) ∧
  ∀ (s : State) (a : Byte),
    (a.toNat < 64 → s.alphaValid = false → exec (.symbolof a) s = .next { s with res := 0x00, status := 1 }) ∧
    (a.toNat < 64 → s.alphaValid = true →
      exec (.symbolof a) s = .next { s with res := readFwd s.fwd (a.extractLsb' 0 6), status := 0 }) ∧
    (64 ≤ a.toNat → exec (.symbolof a) s = .next { s with status := 7 })

/-- R112, on the tables and seen by the host: `VALUEOF` undoes `SYMBOLOF` on every value and `SYMBOLOF` undoes `VALUEOF` on every symbol. -/
def Obligations.ValueofAndSymbolofAreInverse : Prop :=
  ∀ s : State, AlphabetInv s → s.alphaValid = true →
    AlphabetBijection s ∧
    (∀ v : Value, ∃ t u, exec (.symbolof (v.setWidth 8)) s = .next t ∧ exec (.valueof t.res) t = .next u ∧
      u.status = 0 ∧ u.res = v.setWidth 8) ∧
    (∀ b ∈ s.fwd.toList, ∃ t u, exec (.valueof b) s = .next t ∧ exec (.symbolof t.res) t = .next u ∧
      u.status = 0 ∧ u.res = b)

/-- R103: a shuffle keeps the fixed key and its membership; `SETALPHA` keeps the fixed key, which is a symbol afterwards exactly
if the new alphabet has it. -/
def Obligations.FixedKeyAcrossAlphabetChanges : Prop :=
  ∀ s t : State, AlphabetInv s → s.alphaValid = true →
    (exec .shuffle s = .next t → t.fixedKey = s.fixedKey ∧
      (readInv t.inv t.fixedKey ≠ 0xFF ↔ readInv s.inv s.fixedKey ≠ 0xFF)) ∧
    (exec .setalpha s = .next t → t.status = 0 → t.fixedKey = s.fixedKey ∧
      (readInv t.inv t.fixedKey ≠ 0xFF ↔ s.fixedKey ∈ s.inp))

/-! ## ByteTransform commands -/

/-- R122, R124: `SETXFORM` (opcode 0x10) accepts the candidate if and only if it undoes itself at the probe key for every byte 0..127;
otherwise `InvalidTransform`, and the previous transform stays. -/
def Obligations.SetxformFollowsRule : Prop :=
  (∀ a b : Byte, decode (word 0x10 a b) = .ok .setxform) ∧
  ∀ s : State,
    ((∀ b : Byte, b.toNat < 128 → s.xcand.I (s.xcand.T b s.params.probeKey) s.params.probeKey = b) →
      exec .setxform s = .next { s with xform := s.xcand, status := 0 }) ∧
    ((∃ b : Byte, b.toNat < 128 ∧ s.xcand.I (s.xcand.T b s.params.probeKey) s.params.probeKey ≠ b) →
      exec .setxform s = .next { s with status := 4 }) ∧
    TransformValidation s

/-- The example of R122 and R128: the pair that adds the key in both functions is rejected at every legal probe key. -/
def Obligations.UnmatchedAdditionIsRejected : Prop :=
  ∀ s : State, s.params.probeKey.toNat % 128 ≠ 0 → (∀ b k : Byte, s.xcand.T b k = b + k ∧ s.xcand.I b k = b + k) →
    exec .setxform s = .next { s with status := 4 }

/-- R124: the pair that adds and subtracts the key modulo 128 is accepted at every probe key, though it is not
self-inverse. -/
def Obligations.MatchedAdditionIsAccepted : Prop :=
  ∀ s : State,
    (∀ b k : Byte, s.xcand.T b k = BitVec.ofNat 8 ((b.toNat + k.toNat) % 128) ∧
      s.xcand.I b k = BitVec.ofNat 8 ((b.toNat + 256 - k.toNat) % 128)) →
    exec .setxform s = .next { s with xform := s.xcand, status := 0 }

/-- R126, R127: `XFWD` and `XINV` (opcodes 0x11 and 0x12) apply the installed functions to any two bytes, with or without an alphabet. -/
def Obligations.XfwdAndXinvFollowRules : Prop :=
  ∀ (s : State) (a b : Byte),
    decode (word 0x11 a b) = .ok (.xfwd a b) ∧ decode (word 0x12 a b) = .ok (.xinv a b) ∧
    exec (.xfwd a b) s = .next { s with res := s.xform.T a b, status := 0 } ∧
    exec (.xinv a b) s = .next { s with res := s.xform.I a b, status := 0 }

/-- R121: under the default transform `XINV` of `XFWD` is the byte again, for every byte and key, and bytes below 128 under
keys below 128 stay below 128. -/
def Obligations.DefaultTransformUndoesItself : Prop :=
  ∀ (s t : State) (b k : Byte), s.xform = Xform.default → exec (.xfwd b k) s = .next t →
    exec (.xinv t.res k) t = .next { t with res := b, status := 0 } ∧
    (b.toNat < 128 → k.toNat < 128 → t.res.toNat < 128)

/-- R28, R35: the model holds every pair of functions of a byte and a key byte, each in exactly one canonical form (log 7). -/
def Obligations.EveryFunctionPairIsOneTransform : Prop :=
  ∀ f g : Byte → Byte → Byte, ∃! x : Xform, x.wf = true ∧ (∀ b k, x.T b k = f b k) ∧ (∀ b k, x.I b k = g b k)

/-! ## KeySelector commands -/

/-- R136: `SETBLUFF` (opcode 0x20) takes `A[0]` and needs no alphabet. -/
def Obligations.SetbluffFollowsRule : Prop :=
  (∀ a b : Byte, decode (word 0x20 a b) = .ok (.setbluff (a.getLsbD 0))) ∧
  ∀ (s : State) (e : Bool), exec (.setbluff e) s = .next { s with bluff := e, status := 0 }

/-- R138: `SETKEY` (opcode 0x21, symbol in `A`). -/
def Obligations.SetkeyFollowsRule : Prop :=
  (∀ a b : Byte, decode (word 0x21 a b) = .ok (.setkey a)) ∧
  ∀ (s : State) (a : Byte),
    (s.alphaValid = false → exec (.setkey a) s = .next { s with status := 1 }) ∧
    (s.alphaValid = true → readInv s.inv a = 0xFF → exec (.setkey a) s = .next { s with status := 3 }) ∧
    (s.alphaValid = true → readInv s.inv a ≠ 0xFF → exec (.setkey a) s = .next { s with fixedKey := a, status := 0 })

/-- R140: `NEXTKEY` (opcode 0x22), with bluff off and on; with bluff on the fixed key is neither read nor checked. -/
def Obligations.NextkeyFollowsRule : Prop :=
  (∀ a b : Byte, decode (word 0x22 a b) = .ok .nextkey) ∧
  ∀ s : State,
    (s.alphaValid = false → exec .nextkey s = .next { s with res := 0x00, status := 1 }) ∧
    (s.alphaValid = true → s.bluff = false → readInv s.inv s.fixedKey = 0xFF →
      exec .nextkey s = .next { s with res := 0x00, status := 3 }) ∧
    (s.alphaValid = true → s.bluff = true ∨ readInv s.inv s.fixedKey ≠ 0xFF →
      ∃ key r, KeyChosen s key r ∧ exec .nextkey s = .next { s with res := key, rnd := r, status := 0 })

/-- R140: "the returned key is always a member of the current alphabet". -/
def Obligations.ChosenKeyIsASymbol : Prop :=
  ∀ s t : State, AlphabetInv s → exec .nextkey s = .next t → t.status = 0 → t.res ∈ t.fwd.toList

/-! ## Codec commands -/

/-- R153 with R150, R152, R154 to R157 and the message format of R82, R84 to R86: what `ENC` (opcode 0x30) does in every state,
position by position (on an `IN` longer than `MAX_LEN`: log 9). That `TransformRangeEscape` is a next state with `STATUS` 8 is log 8 (DEDUCED). -/
def Obligations.EncFollowsRule : Prop :=
  (∀ a b : Byte, decode (word 0x30 a b) = .ok .enc) ∧
  ∀ s : State,
    (s.inp = [] → exec .enc s = .next { s with out := [], status := 0 }) ∧
    (s.inp ≠ [] → s.alphaValid = false → exec .enc s = .next { s with out := [], status := 1 }) ∧
    (s.inp ≠ [] → s.alphaValid = true → s.bluff = false → readInv s.inv s.fixedKey = 0xFF →
      exec .enc s = .next { s with out := [], status := 3 }) ∧
    (s.inp ≠ [] → s.alphaValid = true → s.bluff = true ∨ readInv s.inv s.fixedKey ≠ 0xFF →
      ∃ key r, KeyChosen s key r ∧
        ((∃ p, p < s.inp.length ∧ (generalValue s.xform.T key s.inp p).getLsbD 7 = true) →
          exec .enc s = .next { s with out := [], rnd := r, status := 8 }) ∧
        ((∀ p, p < s.inp.length → (generalValue s.xform.T key s.inp p).getLsbD 7 = false) →
          ∃ text, exec .enc s = .next { s with out := text, rnd := r, status := 0 } ∧
            GeneralLayout s.fwd s.xform.T key s.inp text))

/-- R178 with R176, R177, R179 to R181 and the message format of R83 to R85, R87: what `ENCA` (opcode 0x32) does in every state,
position by position (on an `IN` longer than `MAX_LEN`: log 9). That `TransformRangeEscape` is a next state with `STATUS` 8 is log 8 (DEDUCED). -/
def Obligations.EncaFollowsRule : Prop :=
  (∀ a b : Byte, decode (word 0x32 a b) = .ok .enca) ∧
  ∀ s : State,
    (s.inp = [] → exec .enca s = .next { s with out := [], status := 0 }) ∧
    (s.inp ≠ [] → s.alphaValid = false → exec .enca s = .next { s with out := [], status := 1 }) ∧
    (s.alphaValid = true → (∃ b ∈ s.inp, 128 ≤ b.toNat) → exec .enca s = .next { s with out := [], status := 6 }) ∧
    (s.inp ≠ [] → s.alphaValid = true → (∀ b ∈ s.inp, b.toNat < 128) → s.bluff = false →
      readInv s.inv s.fixedKey = 0xFF → exec .enca s = .next { s with out := [], status := 3 }) ∧
    (s.inp ≠ [] → s.alphaValid = true → (∀ b ∈ s.inp, b.toNat < 128) →
      s.bluff = true ∨ readInv s.inv s.fixedKey ≠ 0xFF →
      ∃ key r, KeyChosen s key r ∧
        ((∃ p, p < s.inp.length ∧ (asciiValue s.xform.T key s.inp p).getLsbD 7 = true) →
          exec .enca s = .next { s with out := [], rnd := r, status := 8 }) ∧
        ((∀ p, p < s.inp.length → (asciiValue s.xform.T key s.inp p).getLsbD 7 = false) →
          ∃ text, exec .enca s = .next { s with out := text, rnd := r, status := 0 } ∧
            AsciiLayout s.fwd s.xform.T key s.inp text))

/-- R161 with R160, R162, R163: what `DEC` (opcode 0x31) does in every state, byte by byte (on an `IN` longer than `MAX_LEN`: log 9).
In a state whose `INV` holds an entry of 64 to 254, which no rule allows, the sum of whole bytes is the model's choice (log 14). -/
def Obligations.DecFollowsRule : Prop :=
  (∀ a b : Byte, decode (word 0x31 a b) = .ok .dec) ∧
  ∀ s : State,
    (s.inp = [] → exec .dec s = .next { s with out := [], status := 0 }) ∧
    (s.inp ≠ [] → s.alphaValid = false → exec .dec s = .next { s with out := [], status := 1 }) ∧
    (s.inp ≠ [] → s.alphaValid = true → (s.inp.length - 1) % 4 = 1 →
      exec .dec s = .next { s with out := [], status := 5 }) ∧
    (s.inp ≠ [] → s.alphaValid = true → (s.inp.length - 1) % 4 ≠ 1 → (∃ b ∈ s.inp, readInv s.inv b = 0xFF) →
      exec .dec s = .next { s with out := [], status := 2 }) ∧
    (s.inp ≠ [] → s.alphaValid = true → (s.inp.length - 1) % 4 ≠ 1 → (∀ b ∈ s.inp, readInv s.inv b ≠ 0xFF) →
      ∃ bytes, exec .dec s = .next { s with out := bytes, status := 0 } ∧
        bytes.length = s.inp.length - 1 - ceilDiv (s.inp.length - 1) 4 ∧
        ∀ p, p < bytes.length → bytes[p]? = some (generalByte s.inv s.xform.I s.inp p))

/-- R185 with R184, R186, R187: what `DECA` (opcode 0x33) does in every state, byte by byte (on an `IN` longer than `MAX_LEN`: log 9).
In a state whose `INV` holds an entry of 64 to 254, which no rule allows, the sum of whole bytes is the model's choice (log 14). -/
def Obligations.DecaFollowsRule : Prop :=
  (∀ a b : Byte, decode (word 0x33 a b) = .ok .deca) ∧
  ∀ s : State,
    (s.inp = [] → exec .deca s = .next { s with out := [], status := 0 }) ∧
    (s.inp ≠ [] → s.alphaValid = false → exec .deca s = .next { s with out := [], status := 1 }) ∧
    (s.inp ≠ [] → s.alphaValid = true → (s.inp.length - 1) % 7 = 1 →
      exec .deca s = .next { s with out := [], status := 5 }) ∧
    (s.inp ≠ [] → s.alphaValid = true → (s.inp.length - 1) % 7 ≠ 1 → (∃ b ∈ s.inp, readInv s.inv b = 0xFF) →
      exec .deca s = .next { s with out := [], status := 2 }) ∧
    (s.inp ≠ [] → s.alphaValid = true → (s.inp.length - 1) % 7 ≠ 1 → (∀ b ∈ s.inp, readInv s.inv b ≠ 0xFF) →
      ∃ bytes, exec .deca s = .next { s with out := bytes, status := 0 } ∧
        bytes.length = s.inp.length - 1 - ceilDiv (s.inp.length - 1) 7 ∧
        ∀ p, p < bytes.length → bytes[p]? = some (asciiByte s.inv s.xform.I s.inp p))

/-- R166: the round trip of the general form, in any later state with the same alphabet and transform; the empty input
needs no condition on the transform or the alphabet. Of an input or a message longer than `MAX_LEN`: log 9. -/
def Obligations.GeneralFormRoundTrips : Prop := ∀ s : State, RoundTrips .enc .dec s

/-- R190: the round trip of the ASCII form. Of an input or a message longer than `MAX_LEN`: log 9. -/
def Obligations.AsciiFormRoundTrips : Prop := ∀ s : State, RoundTrips .enca .deca s

/-- R166, R190, R121: under the default transform and an alphabet below 128 the round trip needs no premise about the encoder:
`ENC` succeeds on every input and `ENCA` on every input below 128, and the decoder gives the input back. Of an input or a message longer than
`MAX_LEN`: log 9. -/
def Obligations.DefaultTransformRoundTrips : Prop :=
  ∀ s : State, AlphabetInv s → s.alphaValid = true → s.xform = Xform.default →
    (∀ b ∈ s.fwd.toList, b.toNat < 128) → s.bluff = true ∨ s.fixedKey ∈ s.fwd.toList →
    (∃ t, exec .enc s = .next t ∧ t.status = 0 ∧
      exec .dec { t with inp := t.out } = .next { t with inp := t.out, out := s.inp }) ∧
    ((∀ b ∈ s.inp, b.toNat < 128) → ∃ t, exec .enca s = .next t ∧ t.status = 0 ∧
      exec .deca { t with inp := t.out } = .next { t with inp := t.out, out := s.inp })

/-- R144: with bluff on, each of the 64 answers `j` of the draw gives a message that begins with `FWD[j]` and that `DEC` maps back
to the input, if the transform undoes itself and stays below 128 at that key. Of an input or a message longer than `MAX_LEN`:
log 9. -/
def Obligations.BluffDrawSetsFirstSymbol : Prop :=
  ∀ s : State, AlphabetInv s → s.alphaValid = true → s.bluff = true → s.inp ≠ [] → BluffVariability s

/-- R81, R158, R182: every byte of an encoded message is a symbol of the current alphabet. -/
def Obligations.EncodedBytesAreSymbols : Prop :=
  ∀ (i : Instr) (s t : State), i = .enc ∨ i = .enca → AlphabetInv s → exec i s = .next t →
    ∀ b ∈ t.out, b ∈ s.fwd.toList

/-- R156, R180, U1: the sufficient condition for `TransformRangeEscape` never to arise: `T` keeps 0..127 within 0..127 under
every symbol. -/
def Obligations.NoEscapeWhileTransformStaysBelow128 : Prop :=
  ∀ (i : Instr) (s t : State), i = .enc ∨ i = .enca → AlphabetInv s →
    (∀ b k : Byte, b.toNat < 128 → k ∈ s.fwd.toList → (s.xform.T b k).toNat < 128) →
    exec i s = .next t → Safe t

/-- R125: the encoders use `T`, and the decoders `I`, at first arguments in 0..127 only: two transforms that agree there give the
same results. -/
def Obligations.CodecsUseTransformOn0To127 : Prop :=
  ∀ (i : Instr) (s t : State) (x : Xform), WritesOut i → AlphabetInv s →
    (∀ b k : Byte, b.toNat < 128 → x.T b k = s.xform.T b k ∧ x.I b k = s.xform.I b k) →
    exec i s = .next t → exec i { s with xform := x } = .next { t with xform := x }

/-- R164, R187: a decoder ignores the mark bits of the slots a short last block lacks. Two texts of one length that agree
everywhere but in their last mark, whose values agree in the bits of the slots present, give the same result. -/
def Obligations.DecodersIgnoreAbsentSlots : Prop :=
  ∀ (s : State) (text text' : List Byte) (r : Nat), text'.length = text.length →
    r ≤ text.length → (∀ p, p ≠ text.length - r → text'.getD p 0 = text.getD p 0) →
    readInv s.inv (text.getD (text.length - r) 0) ≠ 0xFF → readInv s.inv (text'.getD (text.length - r) 0) ≠ 0xFF →
    (r = (text.length - 1) % 4 → 2 ≤ r →
      (∀ k, k < 2 * (r - 1) → (readInv s.inv (text'.getD (text.length - r) 0)).getLsbD k =
        (readInv s.inv (text.getD (text.length - r) 0)).getLsbD k) →
      ∀ t, exec .dec { s with inp := text } = .next t →
        exec .dec { s with inp := text' } = .next { t with inp := text' }) ∧
    (r = (text.length - 1) % 7 → 2 ≤ r →
      (∀ k, k < r - 1 → (readInv s.inv (text'.getD (text.length - r) 0)).getLsbD k =
        (readInv s.inv (text.getD (text.length - r) 0)).getLsbD k) →
      ∀ t, exec .deca { s with inp := text } = .next t →
        exec .deca { s with inp := text' } = .next { t with inp := text' })

/-- R142: `BLUFF` and `FIXED_KEY` have no effect on `DEC` and `DECA`. -/
def Obligations.DecodersIgnoreKeySelector : Prop :=
  ∀ (i : Instr) (s t : State) (e : Bool) (k : Byte), i = .dec ∨ i = .deca → exec i s = .next t →
    exec i { s with bluff := e, fixedKey := k } = .next { t with bluff := e, fixedKey := k }

/-- R189: a one-byte input below 128 gives the same text in both forms. -/
def Obligations.OneByteTextsAgree : Prop :=
  ∀ (s : State) (b : Byte), s.inp = [b] → b.toNat < 128 → exec .enc s = exec .enca s

/-- R154: a byte and its complement give the same payload symbol, and their messages differ in the mark alone: one byte apart
at position 1. -/
def Obligations.ComplementSharesPayload : Prop :=
  ∀ (s t u : State) (b : Byte), s.inp = [b] → AlphabetInv s → s.bluff = false → exec .enc s = .next t →
    exec .enc { s with inp := [~~~b] } = .next u → t.status = 0 →
    u.status = 0 ∧ u.out[0]? = t.out[0]? ∧ u.out[2]? = t.out[2]? ∧ u.out[1]? ≠ t.out[1]?
end

