-- ==== Sys2Proof/Laws/State.lean ====
section
/-! SUPPORT. What each update of the state leaves in each field: one lemma per field per update, all true by `rfl`, so that
no proof unfolds an update. -/

namespace Sys2Proof.Machine

/-! ### State.succeed -/

@[simp] theorem succeed_params (s : State) : (s.succeed).params = s.params := rfl
@[simp] theorem succeed_fwd (s : State) : (s.succeed).fwd = s.fwd := rfl
@[simp] theorem succeed_inv (s : State) : (s.succeed).inv = s.inv := rfl
@[simp] theorem succeed_alphaValid (s : State) : (s.succeed).alphaValid = s.alphaValid := rfl
@[simp] theorem succeed_xform (s : State) : (s.succeed).xform = s.xform := rfl
@[simp] theorem succeed_bluff (s : State) : (s.succeed).bluff = s.bluff := rfl
@[simp] theorem succeed_fixedKey (s : State) : (s.succeed).fixedKey = s.fixedKey := rfl
@[simp] theorem succeed_status (s : State) : (s.succeed).status = statusOk := rfl
@[simp] theorem succeed_res (s : State) : (s.succeed).res = s.res := rfl
@[simp] theorem succeed_out (s : State) : (s.succeed).out = s.out := rfl
@[simp] theorem succeed_inp (s : State) : (s.succeed).inp = s.inp := rfl
@[simp] theorem succeed_xcand (s : State) : (s.succeed).xcand = s.xcand := rfl
@[simp] theorem succeed_pending (s : State) : (s.succeed).pending = s.pending := rfl
@[simp] theorem succeed_rnd (s : State) : (s.succeed).rnd = s.rnd := rfl

/-! ### State.succeedRes -/

@[simp] theorem succeedRes_params (s : State) (v : Byte) : (s.succeedRes v).params = s.params := rfl
@[simp] theorem succeedRes_fwd (s : State) (v : Byte) : (s.succeedRes v).fwd = s.fwd := rfl
@[simp] theorem succeedRes_inv (s : State) (v : Byte) : (s.succeedRes v).inv = s.inv := rfl
@[simp] theorem succeedRes_alphaValid (s : State) (v : Byte) : (s.succeedRes v).alphaValid = s.alphaValid := rfl
@[simp] theorem succeedRes_xform (s : State) (v : Byte) : (s.succeedRes v).xform = s.xform := rfl
@[simp] theorem succeedRes_bluff (s : State) (v : Byte) : (s.succeedRes v).bluff = s.bluff := rfl
@[simp] theorem succeedRes_fixedKey (s : State) (v : Byte) : (s.succeedRes v).fixedKey = s.fixedKey := rfl
@[simp] theorem succeedRes_status (s : State) (v : Byte) : (s.succeedRes v).status = statusOk := rfl
@[simp] theorem succeedRes_res (s : State) (v : Byte) : (s.succeedRes v).res = v := rfl
@[simp] theorem succeedRes_out (s : State) (v : Byte) : (s.succeedRes v).out = s.out := rfl
@[simp] theorem succeedRes_inp (s : State) (v : Byte) : (s.succeedRes v).inp = s.inp := rfl
@[simp] theorem succeedRes_xcand (s : State) (v : Byte) : (s.succeedRes v).xcand = s.xcand := rfl
@[simp] theorem succeedRes_pending (s : State) (v : Byte) : (s.succeedRes v).pending = s.pending := rfl
@[simp] theorem succeedRes_rnd (s : State) (v : Byte) : (s.succeedRes v).rnd = s.rnd := rfl

/-! ### State.succeedOut -/

@[simp] theorem succeedOut_params (s : State) (l : List Byte) : (s.succeedOut l).params = s.params := rfl
@[simp] theorem succeedOut_fwd (s : State) (l : List Byte) : (s.succeedOut l).fwd = s.fwd := rfl
@[simp] theorem succeedOut_inv (s : State) (l : List Byte) : (s.succeedOut l).inv = s.inv := rfl
@[simp] theorem succeedOut_alphaValid (s : State) (l : List Byte) : (s.succeedOut l).alphaValid = s.alphaValid := rfl
@[simp] theorem succeedOut_xform (s : State) (l : List Byte) : (s.succeedOut l).xform = s.xform := rfl
@[simp] theorem succeedOut_bluff (s : State) (l : List Byte) : (s.succeedOut l).bluff = s.bluff := rfl
@[simp] theorem succeedOut_fixedKey (s : State) (l : List Byte) : (s.succeedOut l).fixedKey = s.fixedKey := rfl
@[simp] theorem succeedOut_status (s : State) (l : List Byte) : (s.succeedOut l).status = statusOk := rfl
@[simp] theorem succeedOut_res (s : State) (l : List Byte) : (s.succeedOut l).res = s.res := rfl
@[simp] theorem succeedOut_out (s : State) (l : List Byte) : (s.succeedOut l).out = l := rfl
@[simp] theorem succeedOut_inp (s : State) (l : List Byte) : (s.succeedOut l).inp = s.inp := rfl
@[simp] theorem succeedOut_xcand (s : State) (l : List Byte) : (s.succeedOut l).xcand = s.xcand := rfl
@[simp] theorem succeedOut_pending (s : State) (l : List Byte) : (s.succeedOut l).pending = s.pending := rfl
@[simp] theorem succeedOut_rnd (s : State) (l : List Byte) : (s.succeedOut l).rnd = s.rnd := rfl

/-! ### raise, result register none -/

@[simp] theorem raise_none_params (k : ErrorKind) (s : State) : (raise k .none s).params = s.params := rfl
@[simp] theorem raise_none_fwd (k : ErrorKind) (s : State) : (raise k .none s).fwd = s.fwd := rfl
@[simp] theorem raise_none_inv (k : ErrorKind) (s : State) : (raise k .none s).inv = s.inv := rfl
@[simp] theorem raise_none_alphaValid (k : ErrorKind) (s : State) : (raise k .none s).alphaValid = s.alphaValid := rfl
@[simp] theorem raise_none_xform (k : ErrorKind) (s : State) : (raise k .none s).xform = s.xform := rfl
@[simp] theorem raise_none_bluff (k : ErrorKind) (s : State) : (raise k .none s).bluff = s.bluff := rfl
@[simp] theorem raise_none_fixedKey (k : ErrorKind) (s : State) : (raise k .none s).fixedKey = s.fixedKey := rfl
@[simp] theorem raise_none_status (k : ErrorKind) (s : State) : (raise k .none s).status = errorCode k := rfl
@[simp] theorem raise_none_res (k : ErrorKind) (s : State) : (raise k .none s).res = s.res := rfl
@[simp] theorem raise_none_out (k : ErrorKind) (s : State) : (raise k .none s).out = s.out := rfl
@[simp] theorem raise_none_inp (k : ErrorKind) (s : State) : (raise k .none s).inp = s.inp := rfl
@[simp] theorem raise_none_xcand (k : ErrorKind) (s : State) : (raise k .none s).xcand = s.xcand := rfl
@[simp] theorem raise_none_pending (k : ErrorKind) (s : State) : (raise k .none s).pending = s.pending := rfl
@[simp] theorem raise_none_rnd (k : ErrorKind) (s : State) : (raise k .none s).rnd = s.rnd := rfl

/-! ### raise, result register res -/

@[simp] theorem raise_res_params (k : ErrorKind) (s : State) : (raise k .res s).params = s.params := rfl
@[simp] theorem raise_res_fwd (k : ErrorKind) (s : State) : (raise k .res s).fwd = s.fwd := rfl
@[simp] theorem raise_res_inv (k : ErrorKind) (s : State) : (raise k .res s).inv = s.inv := rfl
@[simp] theorem raise_res_alphaValid (k : ErrorKind) (s : State) : (raise k .res s).alphaValid = s.alphaValid := rfl
@[simp] theorem raise_res_xform (k : ErrorKind) (s : State) : (raise k .res s).xform = s.xform := rfl
@[simp] theorem raise_res_bluff (k : ErrorKind) (s : State) : (raise k .res s).bluff = s.bluff := rfl
@[simp] theorem raise_res_fixedKey (k : ErrorKind) (s : State) : (raise k .res s).fixedKey = s.fixedKey := rfl
@[simp] theorem raise_res_status (k : ErrorKind) (s : State) : (raise k .res s).status = errorCode k := rfl
@[simp] theorem raise_res_res (k : ErrorKind) (s : State) : (raise k .res s).res = 0x00 := rfl
@[simp] theorem raise_res_out (k : ErrorKind) (s : State) : (raise k .res s).out = s.out := rfl
@[simp] theorem raise_res_inp (k : ErrorKind) (s : State) : (raise k .res s).inp = s.inp := rfl
@[simp] theorem raise_res_xcand (k : ErrorKind) (s : State) : (raise k .res s).xcand = s.xcand := rfl
@[simp] theorem raise_res_pending (k : ErrorKind) (s : State) : (raise k .res s).pending = s.pending := rfl
@[simp] theorem raise_res_rnd (k : ErrorKind) (s : State) : (raise k .res s).rnd = s.rnd := rfl

/-! ### raise, result register out -/

@[simp] theorem raise_out_params (k : ErrorKind) (s : State) : (raise k .out s).params = s.params := rfl
@[simp] theorem raise_out_fwd (k : ErrorKind) (s : State) : (raise k .out s).fwd = s.fwd := rfl
@[simp] theorem raise_out_inv (k : ErrorKind) (s : State) : (raise k .out s).inv = s.inv := rfl
@[simp] theorem raise_out_alphaValid (k : ErrorKind) (s : State) : (raise k .out s).alphaValid = s.alphaValid := rfl
@[simp] theorem raise_out_xform (k : ErrorKind) (s : State) : (raise k .out s).xform = s.xform := rfl
@[simp] theorem raise_out_bluff (k : ErrorKind) (s : State) : (raise k .out s).bluff = s.bluff := rfl
@[simp] theorem raise_out_fixedKey (k : ErrorKind) (s : State) : (raise k .out s).fixedKey = s.fixedKey := rfl
@[simp] theorem raise_out_status (k : ErrorKind) (s : State) : (raise k .out s).status = errorCode k := rfl
@[simp] theorem raise_out_res (k : ErrorKind) (s : State) : (raise k .out s).res = s.res := rfl
@[simp] theorem raise_out_out (k : ErrorKind) (s : State) : (raise k .out s).out = [] := rfl
@[simp] theorem raise_out_inp (k : ErrorKind) (s : State) : (raise k .out s).inp = s.inp := rfl
@[simp] theorem raise_out_xcand (k : ErrorKind) (s : State) : (raise k .out s).xcand = s.xcand := rfl
@[simp] theorem raise_out_pending (k : ErrorKind) (s : State) : (raise k .out s).pending = s.pending := rfl
@[simp] theorem raise_out_rnd (k : ErrorKind) (s : State) : (raise k .out s).rnd = s.rnd := rfl

/-! ### installAlphabet -/

@[simp] theorem installAlphabet_params (F : Vector Byte 64) (s : State) : (installAlphabet F s).params = s.params := rfl
@[simp] theorem installAlphabet_fwd (F : Vector Byte 64) (s : State) : (installAlphabet F s).fwd = F := rfl
@[simp] theorem installAlphabet_inv (F : Vector Byte 64) (s : State) : (installAlphabet F s).inv = rebuildInv F := rfl
@[simp] theorem installAlphabet_alphaValid (F : Vector Byte 64) (s : State) : (installAlphabet F s).alphaValid = s.alphaValid := rfl
@[simp] theorem installAlphabet_xform (F : Vector Byte 64) (s : State) : (installAlphabet F s).xform = s.xform := rfl
@[simp] theorem installAlphabet_bluff (F : Vector Byte 64) (s : State) : (installAlphabet F s).bluff = s.bluff := rfl
@[simp] theorem installAlphabet_fixedKey (F : Vector Byte 64) (s : State) : (installAlphabet F s).fixedKey = s.fixedKey := rfl
@[simp] theorem installAlphabet_status (F : Vector Byte 64) (s : State) : (installAlphabet F s).status = s.status := rfl
@[simp] theorem installAlphabet_res (F : Vector Byte 64) (s : State) : (installAlphabet F s).res = s.res := rfl
@[simp] theorem installAlphabet_out (F : Vector Byte 64) (s : State) : (installAlphabet F s).out = s.out := rfl
@[simp] theorem installAlphabet_inp (F : Vector Byte 64) (s : State) : (installAlphabet F s).inp = s.inp := rfl
@[simp] theorem installAlphabet_xcand (F : Vector Byte 64) (s : State) : (installAlphabet F s).xcand = s.xcand := rfl
@[simp] theorem installAlphabet_pending (F : Vector Byte 64) (s : State) : (installAlphabet F s).pending = s.pending := rfl
@[simp] theorem installAlphabet_rnd (F : Vector Byte 64) (s : State) : (installAlphabet F s).rnd = s.rnd := rfl

/-! ### illegalCommand -/

@[simp] theorem illegalCommand_params (s : State) : (illegalCommand s).params = s.params := rfl
@[simp] theorem illegalCommand_fwd (s : State) : (illegalCommand s).fwd = s.fwd := rfl
@[simp] theorem illegalCommand_inv (s : State) : (illegalCommand s).inv = s.inv := rfl
@[simp] theorem illegalCommand_alphaValid (s : State) : (illegalCommand s).alphaValid = s.alphaValid := rfl
@[simp] theorem illegalCommand_xform (s : State) : (illegalCommand s).xform = s.xform := rfl
@[simp] theorem illegalCommand_bluff (s : State) : (illegalCommand s).bluff = s.bluff := rfl
@[simp] theorem illegalCommand_fixedKey (s : State) : (illegalCommand s).fixedKey = s.fixedKey := rfl
@[simp] theorem illegalCommand_status (s : State) : (illegalCommand s).status = errorCode .illegalCommand := rfl
@[simp] theorem illegalCommand_res (s : State) : (illegalCommand s).res = s.res := rfl
@[simp] theorem illegalCommand_out (s : State) : (illegalCommand s).out = s.out := rfl
@[simp] theorem illegalCommand_inp (s : State) : (illegalCommand s).inp = s.inp := rfl
@[simp] theorem illegalCommand_xcand (s : State) : (illegalCommand s).xcand = s.xcand := rfl
@[simp] theorem illegalCommand_pending (s : State) : (illegalCommand s).pending = s.pending := rfl
@[simp] theorem illegalCommand_rnd (s : State) : (illegalCommand s).rnd = s.rnd := rfl

/-! ### retire -/

@[simp] theorem retire_params (s : State) : (retire s).params = s.params := rfl
@[simp] theorem retire_fwd (s : State) : (retire s).fwd = s.fwd := rfl
@[simp] theorem retire_inv (s : State) : (retire s).inv = s.inv := rfl
@[simp] theorem retire_alphaValid (s : State) : (retire s).alphaValid = s.alphaValid := rfl
@[simp] theorem retire_xform (s : State) : (retire s).xform = s.xform := rfl
@[simp] theorem retire_bluff (s : State) : (retire s).bluff = s.bluff := rfl
@[simp] theorem retire_fixedKey (s : State) : (retire s).fixedKey = s.fixedKey := rfl
@[simp] theorem retire_status (s : State) : (retire s).status = s.status := rfl
@[simp] theorem retire_res (s : State) : (retire s).res = s.res := rfl
@[simp] theorem retire_out (s : State) : (retire s).out = s.out := rfl
@[simp] theorem retire_inp (s : State) : (retire s).inp = [] := rfl
@[simp] theorem retire_xcand (s : State) : (retire s).xcand = Xform.default := rfl
@[simp] theorem retire_pending (s : State) : (retire s).pending = s.pending := rfl
@[simp] theorem retire_rnd (s : State) : (retire s).rnd = s.rnd := rfl

end Sys2Proof.Machine
end

