-- ==== Sys2Proof/Laws/Tables.lean ====
section
/-! SUPPORT. The laws of the lookup tables: `INV` is the inverse of `FWD` after `rebuildInv` (R26, R100), a swap permutes
`FWD` (R104), and the sparse tables of a transform read what was written and keep their canonical form (log 7). -/

namespace Sys2Proof.Machine

/-! ## FWD and INV -/

theorem readFwd_mem (F : Vector Byte 64) (v : Value) : readFwd F v ∈ F.toList := by
  unfold readFwd
  exact Vector.mem_toList_iff.2 (Vector.getElem_mem _)

/-- Every entry of `FWD` is read at a 6-bit value. -/
theorem mem_toList_iff_readFwd {F : Vector Byte 64} {b : Byte} : b ∈ F.toList ↔ ∃ v : Value, readFwd F v = b := by
  constructor
  · intro h
    obtain ⟨n, hn, rfl⟩ := List.getElem_of_mem h
    have hn' : n < 64 := by simpa using hn
    refine ⟨BitVec.ofNat 6 n, ?_⟩
    simp [readFwd, Nat.mod_eq_of_lt hn']
  · rintro ⟨v, rfl⟩
    exact readFwd_mem F v

theorem readFwd_ext {F G : Vector Byte 64} (h : ∀ v : Value, readFwd F v = readFwd G v) : F = G := by
  ext n hn : 1
  have := h (BitVec.ofNat 6 n)
  simpa [readFwd, Nat.mod_eq_of_lt hn] using this

/-- In a table of distinct entries a value is fixed by its symbol. -/
theorem readFwd_injective {F : Vector Byte 64} (h : F.toList.Nodup) {v w : Value} (e : readFwd F v = readFwd F w) :
    v = w := by
  have hv : v.toNat < F.toList.length := by simpa using v.isLt
  have hw : w.toNat < F.toList.length := by simpa using w.isLt
  have : F.toList[v.toNat] = F.toList[w.toNat] := by simpa [readFwd] using e
  exact BitVec.eq_of_toNat_eq ((List.Nodup.getElem_inj_iff h).1 this)

theorem readInv_set_self (N : Vector Byte 256) (s v : Byte) : readInv (N.set s.toNat v s.isLt) s = v := by
  simp [readInv]

theorem readInv_set_other (N : Vector Byte 256) {s b : Byte} (v : Byte) (h : b ≠ s) :
    readInv (N.set s.toNat v s.isLt) b = readInv N b := by
  have : s.toNat ≠ b.toNat := fun e => h (BitVec.eq_of_toNat_eq e.symm)
  simp [readInv, Vector.getElem_set_ne, this]

@[simp] theorem readInv_replicate (v b : Byte) : readInv (Vector.replicate 256 v) b = v := by
  simp [readInv]

/-- What `assignInv` does to a byte that it does not assign: nothing. -/
theorem readInv_assignInv_of_not_mem {l : List Byte} {b : Byte} (h : b ∉ l) (v : Nat) (N : Vector Byte 256) :
    readInv (assignInv l v N) b = readInv N b := by
  induction l generalizing v N with
  | nil => rfl
  | cons s rest ih =>
    simp only [List.mem_cons, not_or] at h
    rw [assignInv, ih h.2, readInv_set_other N _ h.1]

/-- What `assignInv` does to the symbol at position `n` of a list of distinct symbols: it gets the value `v + n`. -/
theorem readInv_assignInv_getElem {l : List Byte} (h : l.Nodup) (v : Nat) (N : Vector Byte 256) {n : Nat}
    (hn : n < l.length) : readInv (assignInv l v N) l[n] = BitVec.ofNat 8 (v + n) := by
  induction l generalizing v N n with
  | nil => simp at hn
  | cons s rest ih =>
    rw [List.nodup_cons] at h
    cases n with
    | zero =>
      rw [assignInv]
      simpa using (readInv_assignInv_of_not_mem h.1 (v + 1) _).trans (readInv_set_self N s _)
    | succ n =>
      have := ih h.2 (v + 1) (N.set s.toNat (BitVec.ofNat 8 v) s.isLt) (n := n) (by simpa using hn)
      simpa [assignInv, Nat.add_assoc, Nat.add_comm 1 n] using this

/-- `INV[FWD[v]] = v` after a rebuild from distinct symbols (R26 b, R100). -/
theorem readInv_rebuildInv_readFwd {F : Vector Byte 64} (h : F.toList.Nodup) (v : Value) :
    readInv (rebuildInv F) (readFwd F v) = v.setWidth 8 := by
  have hv : v.toNat < F.toList.length := by simpa using v.isLt
  have := readInv_assignInv_getElem h 0 (Vector.replicate 256 invalidMark) hv
  simp only [Nat.zero_add] at this
  rw [show BitVec.ofNat 8 v.toNat = v.setWidth 8 from by
    apply BitVec.eq_of_toNat_eq; simp] at this
  simpa [rebuildInv, readFwd] using this

/-- `INV[s] = 0xFF` after a rebuild for every byte that is no symbol (R26 c, R100, R102). -/
theorem readInv_rebuildInv_foreign {F : Vector Byte 64} {b : Byte} (h : b ∉ F.toList) :
    readInv (rebuildInv F) b = invalidMark := by
  simp [rebuildInv, readInv_assignInv_of_not_mem h]

/-- No value is the invalid mark (R24). -/
theorem value_ne_invalidMark (v : Value) : v.setWidth 8 ≠ invalidMark := by
  intro h
  have := congrArg BitVec.toNat h
  have hv := v.isLt
  simp [invalidMark] at this
  omega

/-- A swap within the table permutes it (R104). -/
theorem swapEntries_perm (F : Vector Byte 64) (i j : Nat) : (swapEntries F i j).toList.Perm F.toList := by
  unfold swapEntries Vector.swapIfInBounds Array.swapIfInBounds
  simp only [Vector.toList]
  split
  · split
    · exact (Array.swap_perm _ _).toList
    · exact List.Perm.refl _
  · exact List.Perm.refl _

/-- A swap within the table, entry by entry. -/
theorem getElem_swapEntries (F : Vector Byte 64) {i j n : Nat} (hi : i < 64) (hj : j < 64) (hn : n < 64) :
    (swapEntries F i j)[n] = if n = i then F[j] else if n = j then F[i] else F[n] := by
  simp [swapEntries, Vector.swapIfInBounds, Array.swapIfInBounds, hi, hj, Array.getElem_swap]

/-! ## Tables of a transform -/

theorem pointOf_lt (b k : Byte) : pointOf b k < 65536 := by
  have := b.isLt
  have := k.isLt
  unfold pointOf
  omega

/-- The bytes of an address are the point it stands for. -/
theorem point_bytes (b k : Byte) :
    BitVec.ofNat 8 (pointOf b k) = b ∧ BitVec.ofNat 8 (pointOf b k / 256) = k := by
  have := b.isLt
  have := k.isLt
  constructor <;> apply BitVec.eq_of_toNat_eq <;> simp [pointOf] <;> omega

/-- Every address below 65536 is the address of the point made of its bytes. -/
theorem pointOf_bytes {a : Nat} (h : a < 65536) : pointOf (BitVec.ofNat 8 a) (BitVec.ofNat 8 (a / 256)) = a := by
  simp [pointOf]
  omega

@[simp] theorem unlistedPoint_pointOf (b k : Byte) : unlistedPoint (pointOf b k) = b ^^^ k := by
  obtain ⟨h1, h2⟩ := point_bytes b k
  simp [unlistedPoint, h1, h2]

@[simp] theorem applyTable_nil (b k : Byte) : applyTable [] b k = b ^^^ k := by
  simp [applyTable, readPoint]

theorem canonicalFrom_mono {lo lo' : Nat} {t : ByteTable} (h : lo' ≤ lo) (c : canonicalFrom lo t = true) :
    canonicalFrom lo' t = true := by
  cases t with
  | nil => rfl
  | cons p rest =>
    simp only [canonicalFrom, Bool.and_eq_true, decide_eq_true_eq] at c ⊢
    exact ⟨⟨⟨by omega, c.1.1.2⟩, c.1.2⟩, c.2⟩

/-- A canonical table lists nothing below its lower bound. -/
theorem readPoint_below {lo a : Nat} {t : ByteTable} (c : canonicalFrom lo t = true) (h : a < lo) :
    readPoint t a = unlistedPoint a := by
  induction t generalizing lo with
  | nil => rfl
  | cons p rest ih =>
    simp only [canonicalFrom, Bool.and_eq_true, decide_eq_true_eq] at c
    rw [readPoint, if_neg (by omega)]
    exact ih c.2 (by omega)

/-- Reading a table after a write: the byte written there, and elsewhere as before. -/
theorem readPoint_writePoint {lo : Nat} {t : ByteTable} (c : canonicalFrom lo t = true) (a : Nat) (v : Byte) (x : Nat) :
    readPoint (writePoint t a v) x = if x = a then v else readPoint t x := by
  induction t generalizing lo with
  | nil =>
    by_cases hv : v = unlistedPoint a
    · by_cases hx : x = a <;> simp [writePoint, readPoint, hv, hx]
    · by_cases hx : x = a
      · simp [writePoint, readPoint, hv, hx]
      · simp [writePoint, readPoint, hv, hx, Ne.symm hx]
  | cons p rest ih =>
    obtain ⟨a', v'⟩ := p
    simp only [canonicalFrom, Bool.and_eq_true, decide_eq_true_eq] at c
    rw [writePoint]
    split
    · rename_i hlt
      have hbelow : readPoint rest a = unlistedPoint a := readPoint_below c.2 (by omega)
      by_cases hv : v = unlistedPoint a
      · by_cases hx : x = a
        · subst hx
          rw [if_pos hv, readPoint, if_neg (by omega), hbelow, if_pos rfl, hv]
        · rw [if_pos hv, if_neg hx]
      · by_cases hx : x = a
        · subst hx
          simp [hv, readPoint]
        · rw [if_neg hv, if_neg hx, readPoint, if_neg (Ne.symm hx)]
    · split
      · rename_i hge heq
        subst heq
        by_cases hv : v = unlistedPoint a
        · by_cases hx : x = a
          · subst hx
            rw [if_pos hv, if_pos rfl, readPoint_below c.2 (by omega), hv]
          · rw [if_pos hv, if_neg hx, readPoint, if_neg (Ne.symm hx)]
        · by_cases hx : x = a
          · subst hx
            simp [hv, readPoint]
          · rw [if_neg hv, if_neg hx, readPoint, if_neg (Ne.symm hx), readPoint, if_neg (Ne.symm hx)]
      · rename_i hge hne
        by_cases hx : a' = x
        · subst hx
          rw [readPoint, if_pos rfl, if_neg (by omega), readPoint, if_pos rfl]
        · rw [readPoint, if_neg hx, ih c.2, readPoint, if_neg hx]

theorem canonicalFrom_writePoint {lo : Nat} {t : ByteTable} (c : canonicalFrom lo t = true) {a : Nat} (v : Byte)
    (hlo : lo ≤ a) (ha : a < 65536) : canonicalFrom lo (writePoint t a v) = true := by
  induction t generalizing lo with
  | nil =>
    by_cases hv : v = unlistedPoint a
    · simp [writePoint, hv, canonicalFrom]
    · simp [writePoint, hv, canonicalFrom, hlo, ha]
  | cons p rest ih =>
    obtain ⟨a', v'⟩ := p
    have c' := c
    simp only [canonicalFrom, Bool.and_eq_true, decide_eq_true_eq] at c'
    obtain ⟨⟨⟨h1, h2⟩, h3⟩, h4⟩ := c'
    rw [writePoint]
    split
    · rename_i hlt
      by_cases hv : v = unlistedPoint a
      · rw [if_pos hv]; exact c
      · rw [if_neg hv]
        simp only [canonicalFrom, Bool.and_eq_true, decide_eq_true_eq, bne_iff_ne]
        exact ⟨⟨⟨hlo, ha⟩, hv⟩, ⟨⟨by omega, h2⟩, by simpa using h3⟩, h4⟩
    · split
      · rename_i hge heq
        subst heq
        by_cases hv : v = unlistedPoint a
        · rw [if_pos hv]; exact canonicalFrom_mono (by omega) h4
        · rw [if_neg hv]
          simp only [canonicalFrom, Bool.and_eq_true, decide_eq_true_eq, bne_iff_ne]
          exact ⟨⟨⟨hlo, ha⟩, hv⟩, h4⟩
      · rename_i hge hne
        simp only [canonicalFrom, Bool.and_eq_true, decide_eq_true_eq]
        exact ⟨⟨⟨h1, h2⟩, h3⟩, ih h4 (by omega)⟩

/-- A write within the 65536 points keeps the canonical form. -/
theorem wf_writePoint {t : ByteTable} (c : t.wf = true) {a : Nat} (v : Byte) (ha : a < 65536) :
    ByteTable.wf (writePoint t a v) = true :=
  canonicalFrom_writePoint c v (Nat.zero_le a) ha

/-- Tables in canonical form that read alike are equal. -/
theorem canonical_ext {lo : Nat} {t u : ByteTable} (ct : canonicalFrom lo t = true) (cu : canonicalFrom lo u = true)
    (h : ∀ a, a < 65536 → readPoint t a = readPoint u a) : t = u := by
  induction t generalizing lo u with
  | nil =>
    cases u with
    | nil => rfl
    | cons q rest =>
      simp only [canonicalFrom, Bool.and_eq_true, decide_eq_true_eq, bne_iff_ne] at cu
      have := h q.1 cu.1.1.2
      simp [readPoint] at this
      exact absurd this.symm cu.1.2
  | cons p rest ih =>
    obtain ⟨a, v⟩ := p
    have ct' := ct
    simp only [canonicalFrom, Bool.and_eq_true, decide_eq_true_eq, bne_iff_ne] at ct'
    cases u with
    | nil =>
      have := h a ct'.1.1.2
      simp [readPoint] at this
      exact absurd this ct'.1.2
    | cons q rest' =>
      obtain ⟨b, w⟩ := q
      have cu' := cu
      simp only [canonicalFrom, Bool.and_eq_true, decide_eq_true_eq, bne_iff_ne] at cu'
      have hab : a = b := by
        rcases Nat.lt_trichotomy a b with hlt | heq | hgt
        · have := h a ct'.1.1.2
          rw [readPoint, if_pos rfl, readPoint, if_neg (by omega), readPoint_below cu'.2 (by omega)] at this
          exact absurd this ct'.1.2
        · exact heq
        · have := h b cu'.1.1.2
          rw [readPoint, if_neg (by omega), readPoint_below ct'.2 (by omega), readPoint, if_pos rfl] at this
          exact absurd this.symm cu'.1.2
      subst hab
      have hvw : v = w := by
        have := h a ct'.1.1.2
        simpa [readPoint] using this
      subst hvw
      congr 1
      refine ih ct'.2 cu'.2 fun x hx => ?_
      by_cases hxa : a = x
      · subst hxa
        rw [readPoint_below ct'.2 (by omega), readPoint_below cu'.2 (by omega)]
      · have := h x hx
        simpa [readPoint, hxa] using this

theorem canonicalFrom_tablePoints (f : Byte → Byte → Byte) (n a : Nat) (h : a + n ≤ 65536) :
    canonicalFrom a (tablePoints f n a) = true := by
  induction n generalizing a with
  | zero => rfl
  | succ n ih =>
    rw [tablePoints]
    split
    · exact canonicalFrom_mono (by omega) (ih (a + 1) (by omega))
    · rename_i hne
      simp only [canonicalFrom, Bool.and_eq_true, decide_eq_true_eq, bne_iff_ne]
      exact ⟨⟨⟨Nat.le_refl a, by omega⟩, hne⟩, ih (a + 1) (by omega)⟩

/-- What the points of a function read as: the function within the range listed, the default outside it. -/
theorem readPoint_tablePoints (f : Byte → Byte → Byte) (n a x : Nat) (h : a + n ≤ 65536) :
    readPoint (tablePoints f n a) x =
      if a ≤ x ∧ x < a + n then f (BitVec.ofNat 8 x) (BitVec.ofNat 8 (x / 256)) else unlistedPoint x := by
  induction n generalizing a with
  | zero =>
    rw [tablePoints, readPoint, if_neg (by omega)]
  | succ n ih =>
    rw [tablePoints]
    by_cases hx : x = a
    · subst hx
      rw [if_pos (⟨Nat.le_refl _, by omega⟩ : x ≤ x ∧ x < x + (n + 1))]
      split
      · rename_i he
        rw [ih (x + 1) (by omega), if_neg (by omega), he]
      · rw [readPoint, if_pos rfl]
    · have hr : (a + 1 ≤ x ∧ x < a + 1 + n) ↔ (a ≤ x ∧ x < a + (n + 1)) := by omega
      split
      · rw [ih (a + 1) (by omega)]
        simp only [hr]
      · rw [readPoint, if_neg (Ne.symm hx), ih (a + 1) (by omega)]
        simp only [hr]

theorem wf_tableOf (f : Byte → Byte → Byte) : (tableOf f).wf = true :=
  canonicalFrom_tablePoints f 65536 0 (by omega)

/-- The table of a function is that function (R28). -/
theorem applyTable_tableOf (f : Byte → Byte → Byte) (b k : Byte) : applyTable (tableOf f) b k = f b k := by
  obtain ⟨h1, h2⟩ := point_bytes b k
  have := pointOf_lt b k
  rw [applyTable, tableOf, readPoint_tablePoints f 65536 0 _ (by omega), if_pos (by omega), h1, h2]

/-- Tables in canonical form with the same function are equal. -/
theorem wf_ext {t u : ByteTable} (ct : t.wf = true) (cu : u.wf = true)
    (h : ∀ b k, applyTable t b k = applyTable u b k) : t = u := by
  refine canonical_ext ct cu fun a ha => ?_
  have := h (BitVec.ofNat 8 a) (BitVec.ofNat 8 (a / 256))
  simpa [applyTable, pointOf_bytes ha] using this

end Sys2Proof.Machine
end

