-- ==== Sys2Proof/Laws/Ops.lean ====
section
/-! SUPPORT. What each shared operation can do, said once: errors (R204), drawing (R36), key
selection (R140), the alphabet of a sequence (R101), the shuffle loop (R104), the transform check (R122), the port (R21). -/

namespace Sys2Proof.Machine

/-! ## Errors -/

theorem raise_none_eq (k : ErrorKind) (s : State) : raise k .none s = { s with status := errorCode k } := rfl

theorem raise_res_eq (k : ErrorKind) (s : State) :
    raise k .res s = { s with res := 0x00, status := errorCode k } := rfl

theorem raise_out_eq (k : ErrorKind) (s : State) :
    raise k .out s = { s with out := [], status := errorCode k } := rfl

/-- No error kind has the code of `OK`, and every code is at most 8 (R201). -/
theorem errorCode_range (k : ErrorKind) : errorCode k ≠ statusOk ∧ (errorCode k).toNat ≤ 8 := by
  cases k <;> decide

theorem errorCode_injective {k l : ErrorKind} (h : errorCode k = errorCode l) : k = l := by
  cases k <;> cases l <;> first | rfl | exact absurd h (by decide)

/-! ## The random source and the key -/

theorem draw_lt {n : Nat} (h : 0 < n) (r : RandomSource) : (draw n r).1 < n := by
  unfold draw
  split <;> exact Nat.mod_lt _ h

theorem draw_drawn (n : Nat) (r : RandomSource) : (draw n r).2.drawn = r.drawn + 1 := by
  unfold draw
  split <;> rfl

theorem draw_answers (n : Nat) (r : RandomSource) : (draw n r).2.answers = r.answers.tail := by
  unfold draw
  split <;> simp_all

/-- An answer supplied within range is the answer drawn. -/
theorem draw_supplied {n j : Nat} (h : j < n) (rest : List Nat) (k : Nat) :
    draw n ⟨j :: rest, k⟩ = (j, ⟨rest, k + 1⟩) := by
  simp [draw, Nat.mod_eq_of_lt h]

/-- Everything key selection can do (R140). -/
theorem selectKey_cases (s : State) :
    (s.bluff = true ∧ selectKey s =
      .ok (readFwd s.fwd (BitVec.ofNat 6 (draw 64 s.rnd).1), { s with rnd := (draw 64 s.rnd).2 })) ∨
    (s.bluff = false ∧ isSymbol s.inv s.fixedKey = true ∧ selectKey s = .ok (s.fixedKey, s)) ∨
    (s.bluff = false ∧ isSymbol s.inv s.fixedKey = false ∧ selectKey s = .error .invalidKey) := by
  cases hb : s.bluff <;> cases hk : isSymbol s.inv s.fixedKey <;> simp [selectKey, hb, hk]

/-! ## Symbols under the alphabet invariant -/

theorem isSymbol_iff {N : Vector Byte 256} {b : Byte} : isSymbol N b = true ↔ readInv N b ≠ invalidMark := by
  simp [isSymbol]

/-- Under the alphabet invariant the bytes that `INV` maps are the entries of `FWD` (R26). -/
theorem AlphabetInv.isSymbol_iff_mem {s : State} (h : AlphabetInv s) (ha : s.alphaValid = true) {b : Byte} :
    isSymbol s.inv b = true ↔ b ∈ s.fwd.toList := by
  rw [isSymbol_iff]
  constructor
  · intro hne
    by_contra hb
    exact hne (h.foreign ha b hb)
  · intro hb
    obtain ⟨v, rfl⟩ := mem_toList_iff_readFwd.1 hb
    rw [h.inverse ha v]
    exact value_ne_invalidMark v

/-- Under the alphabet invariant `FWD` undoes `INV` on the symbols (R26, R112). -/
theorem AlphabetInv.readFwd_readInv {s : State} (h : AlphabetInv s) (ha : s.alphaValid = true) {b : Byte}
    (hb : isSymbol s.inv b = true) : readFwd s.fwd ((readInv s.inv b).setWidth 6) = b := by
  obtain ⟨v, rfl⟩ := mem_toList_iff_readFwd.1 ((h.isSymbol_iff_mem ha).1 hb)
  rw [h.inverse ha v]
  congr 1
  apply BitVec.eq_of_toNat_eq
  simp

/-- A rebuilt inverse table makes the invariant of distinct symbols (R26, R100). -/
theorem alphabetInv_of_rebuilt {t : State} {F : Vector Byte 64} (hF : F.toList.Nodup) (hf : t.fwd = F)
    (hi : t.inv = rebuildInv F) : AlphabetInv t where
  distinct _ := by rw [hf]; exact hF
  inverse _ v := by rw [hf, hi]; exact readInv_rebuildInv_readFwd hF v
  foreign _ b hb := by rw [hi]; exact readInv_rebuildInv_foreign (by rwa [hf] at hb)

/-! ## Installing an alphabet -/

/-- The sequences `SETALPHA` accepts are the lists of 64 distinct bytes (R101). -/
theorem alphabetOf_eq_some {l : List Byte} {F : Vector Byte 64} :
    alphabetOf l = some F ↔ F.toList = l ∧ l.Nodup := by
  unfold alphabetOf
  constructor
  · intro h
    split at h
    · split at h
      · rename_i hn
        cases h
        exact ⟨by simp [Vector.toList], hn⟩
      · cases h
    · cases h
  · rintro ⟨rfl, hn⟩
    rw [dif_pos (by simp), if_pos hn]
    congr 1

theorem alphabetOf_eq_none {l : List Byte} : alphabetOf l = none ↔ l.length ≠ 64 ∨ ¬ l.Nodup := by
  unfold alphabetOf
  split
  · rename_i h
    split
    · rename_i hn
      simp [h, hn]
    · rename_i hn
      simp [hn]
  · rename_i h
    simp [h]

/-! ## The shuffle -/

/-- The shuffle loop permutes the table (R104). -/
theorem shuffleFrom_perm (i : Nat) (F : Vector Byte 64) (r : RandomSource) :
    (shuffleFrom i F r).1.toList.Perm F.toList := by
  induction i generalizing F r with
  | zero => exact List.Perm.refl _
  | succ i ih => exact (ih _ _).trans (swapEntries_perm F _ _)

/-- The shuffle loop from `i` makes `i` draws (R104). -/
theorem shuffleFrom_drawn (i : Nat) (F : Vector Byte 64) (r : RandomSource) :
    (shuffleFrom i F r).2.drawn = r.drawn + i := by
  induction i generalizing F r with
  | zero => rfl
  | succ i ih =>
    rw [shuffleFrom, ih, draw_drawn]
    omega

theorem shuffleFrom_answers (i : Nat) (F : Vector Byte 64) (r : RandomSource) :
    (shuffleFrom i F r).2.answers = r.answers.drop i := by
  induction i generalizing F r with
  | zero => rfl
  | succ i ih => rw [shuffleFrom, ih, draw_answers, List.drop_tail]

/-! ## The transform check -/

theorem probesHold_iff {x : Xform} {p : Byte} {n a : Nat} :
    probesHold x p n a = true ↔ ∀ c, a ≤ c → c < a + n → probeHolds x p (BitVec.ofNat 8 c) = true := by
  induction n generalizing a with
  | zero =>
    simp only [probesHold, true_iff]
    intro c h1 h2
    omega
  | succ n ih =>
    simp only [probesHold, Bool.and_eq_true, ih]
    constructor
    · rintro ⟨h0, h⟩ c h1 h2
      rcases Nat.eq_or_lt_of_le h1 with rfl | hlt
      · exact h0
      · exact h c hlt (by omega)
    · intro h
      exact ⟨h a (Nat.le_refl a) (by omega), fun c h1 h2 => h c (by omega) (by omega)⟩

/-- The check of R122 accepts exactly the pairs that undo themselves at the probe key on 0..127 (R124). -/
theorem transformAccepted_iff {x : Xform} {p : Byte} : transformAccepted x p = true ↔ UndoesOnDomain x p := by
  rw [transformAccepted, probesHold_iff]
  constructor
  · intro h b hb
    have := h b.toNat (Nat.zero_le _) (by simpa [Config.probeDomain] using hb)
    simpa [probeHolds] using this
  · intro h c _ hc
    have hc' : c < 128 := by simpa [Config.probeDomain] using hc
    have := h (BitVec.ofNat 8 c) (by simp; omega)
    simpa [probeHolds] using this

@[simp] theorem default_T (b k : Byte) : Xform.default.T b k = b ^^^ k := applyTable_nil b k

@[simp] theorem default_I (b k : Byte) : Xform.default.I b k = b ^^^ k := applyTable_nil b k

/-- The default transform undoes itself at every key on every byte (R121). -/
theorem default_undoes (k : Byte) : UndoesOnDomain Xform.default k := by
  intro b _
  simp

/-! ## The port -/

/-- Everything taking a command from the port can do (R21, R34). -/
theorem takeRequest_cases (s : State) :
    (s.pending = [] ∧ takeRequest s = none) ∨
    ∃ q rest, s.pending = q :: rest ∧
      takeRequest s = some (q.word, { s with pending := rest, inp := q.inp, xcand := q.xcand }) := by
  cases h : s.pending with
  | nil => exact .inl ⟨rfl, by simp [takeRequest, h]⟩
  | cons q rest => exact .inr ⟨q, rest, rfl, by simp [takeRequest, h]⟩

theorem retireResult_next {r : Result} {t : State} (h : retireResult r = .next t) :
    ∃ u, r = .next u ∧ t = retire u := by
  cases r with
  | next u => exact ⟨u, rfl, (Host.Outcome.next.inj h).symm⟩
  | fault f => cases f
  | refused f => cases h

end Sys2Proof.Machine
end

