-- ==== Sys2Proof/Laws/Codec.lean ====
section
/-! SUPPORT. The laws of the codec engine: how a list falls into pieces, what stands at each position of an encoded message
(R82 to R87), what a decoder puts at each position (R161, R185), and that a decoded block is the group it was encoded from
(R166, R190). -/

namespace Sys2Proof.Machine

/-! ## Pieces -/

theorem slots_pos (form : Form) : 0 < slots form := by cases form <;> decide

theorem piecesFuel_fuel {n : Nat} (hn : 0 < n) {f f' : Nat} {l : List Byte} (h : l.length ≤ f) (h' : l.length ≤ f') :
    piecesFuel n f l = piecesFuel n f' l := by
  induction f generalizing f' l with
  | zero =>
    have : l = [] := List.length_eq_zero_iff.1 (by omega)
    subst this
    cases f' <;> rfl
  | succ f ih =>
    cases l with
    | nil => cases f' <;> rfl
    | cons b l =>
      cases f' with
      | zero => simp at h'
      | succ f' =>
        rw [piecesFuel, piecesFuel]
        congr 1
        simp only [List.length_cons] at h h'
        apply ih <;> (simp; omega)

@[simp] theorem pieces_nil (n : Nat) : pieces n [] = [] := rfl

/-- A non-empty list: its first piece, then the pieces of the rest. -/
theorem pieces_of_ne_nil {n : Nat} (hn : 0 < n) {l : List Byte} (h : l ≠ []) :
    pieces n l = l.take n :: pieces n (l.drop n) := by
  cases l with
  | nil => exact absurd rfl h
  | cons b l =>
    rw [pieces, List.length_cons, piecesFuel, pieces]
    congr 1
    exact piecesFuel_fuel hn (by simp; omega) (Nat.le_refl _)

/-- A piece in front of a list is the list's first piece when it is full, or when nothing follows it. -/
theorem pieces_append {n : Nat} (hn : 0 < n) {a l : List Byte} (ha : a ≠ [])
    (h : a.length = n ∨ (a.length ≤ n ∧ l = [])) : pieces n (a ++ l) = a :: pieces n l := by
  rw [pieces_of_ne_nil hn (by simp [ha])]
  rcases h with h | ⟨h, rfl⟩
  · rw [List.take_append_of_le_length (by omega), List.drop_append_of_le_length (by omega), ← h]
    simp
  · simp [List.take_of_length_le h, List.drop_of_length_le h]

/-- Induction along the pieces of a list. -/
theorem pieces_induction {n : Nat} (hn : 0 < n) {P : List Byte → Prop} (nil : P [])
    (piece : ∀ l, l ≠ [] → P (l.drop n) → P l) (l : List Byte) : P l := by
  generalize hl : l.length = len
  induction len using Nat.strong_induction_on generalizing l with
  | _ len ih =>
    by_cases h : l = []
    · rw [h]; exact nil
    · refine piece l h (ih (l.drop n).length ?_ _ rfl)
      have : 0 < l.length := List.length_pos_iff.2 h
      simp
      omega

/-! ## Bits -/

theorem getLsbD_setMarkBit (mark : Value) (i : Nat) (b : Bool) {j : Nat} (hj : j < 6) :
    (setMarkBit mark i b).getLsbD j = (mark.getLsbD j || (b && decide (j = i))) := by
  cases b
  · simp [setMarkBit]
  · by_cases h : j = i
    · subst h
      simp [setMarkBit, hj]
    · have : ¬ (i ≤ j ∧ j - i = 0) := by omega
      by_cases hij : j < i
      · simp [setMarkBit, hj, h, hij]
      · have h0 : j - i ≠ 0 := by omega
        simp [setMarkBit, hj, h, hij, h0]

theorem foldSign_foldSign (negative : Bool) (b : Byte) : foldSign negative (foldSign negative b) = b := by
  cases negative <;> simp [foldSign]

/-- A folded byte of the general form, and an unsigned byte of the ASCII form, is below 128 (R154, R175). -/
theorem signBit_fold (form : Form) {b : Byte} (h : form = .general ∨ signBit b = false) :
    signBit (foldSign (signFlag form b) b) = false := by
  cases form
  · cases hb : signBit b
    · simp [foldSign, signFlag, hb]
    · simp [foldSign, signFlag, hb]
      simp_all [signBit]
  · simpa [foldSign, signFlag] using h

theorem signBit_eq_false_iff {b : Byte} : signBit b = false ↔ b.toNat < 128 := by
  have : signBit b = b.msb := by simp [signBit, BitVec.msb_eq_getLsbD_last]
  rw [this, BitVec.msb_eq_false_iff_two_mul_lt]
  omega

/-- The slot index is below 8, so it leaves bits 6 and 7 alone (R155). -/
theorem signBit_xor_slot (x : Byte) {k : Nat} (hk : k < 8) : signBit (x ^^^ BitVec.ofNat 8 k) = signBit x := by
  have h : (BitVec.ofNat 8 k).getLsbD 7 = false := by
    interval_cases k <;> rfl
  rw [signBit, BitVec.getLsbD_xor, h, Bool.xor_false, signBit]

/-- A value below 128 is rebuilt from its low six bits and bit 6 (R161, R166). -/
theorem rebuilt_parts {n : Byte} (h : signBit n = false) : rebuilt ((lowSix n).setWidth 8) (bitSix n) = n := by
  have key : ∀ n : Byte, signBit n = false → rebuilt ((lowSix n).setWidth 8) (bitSix n) = n := by decide +kernel
  exact key n h

/-! ## Encoding -/

section Encoding

variable {form : Form} {F : Vector Byte 64} {T : Byte → Byte → Byte} {key : Byte}

/-- The mark bit of R86 that carries the sign of slot `q` (general form). -/
theorem markSlot_sign (k q : Nat) (range sign : Bool) (mark : Value) (hq : q < 3) :
    (markSlot .general k range sign mark).getLsbD (2 * q + 1) =
      (mark.getLsbD (2 * q + 1) || (sign && decide (q = k))) := by
  rw [markSlot, getLsbD_setMarkBit _ _ _ (by omega), getLsbD_setMarkBit _ _ _ (by omega)]
  have h1 : (2 * q + 1 = 2 * k) = False := by simp; omega
  have h2 : (2 * q + 1 = 2 * k + 1) = (q = k) := by simp
  simp only [h1, h2, decide_false, Bool.and_false, Bool.or_false]

/-- The mark bit that carries `n[6]` of slot `q` (R86, R87). -/
theorem markSlot_range (form : Form) (k q : Nat) (range sign : Bool) (mark : Value) (hq : q < slots form) :
    (markSlot form k range sign mark).getLsbD (rangeBit form q) =
      (mark.getLsbD (rangeBit form q) || (range && decide (q = k))) := by
  cases form
  · have hq' : q < 3 := hq
    rw [markSlot, rangeBit, getLsbD_setMarkBit _ _ _ (by omega), getLsbD_setMarkBit _ _ _ (by omega)]
    have h1 : (2 * q = 2 * k + 1) = False := by simp; omega
    have h2 : (2 * q = 2 * k) = (q = k) := by simp
    simp only [h1, h2, decide_false, Bool.and_false, Bool.or_false]
  · have hq' : q < 6 := hq
    rw [markSlot, rangeBit, getLsbD_setMarkBit _ _ _ (by omega)]

/-- A bit of each slot present, when a group grows by one byte in front. -/
theorem present_cons {k q : Nat} {b : Byte} {g : List Byte} {y : Bool} (f : Byte → Bool) (hy : q = k → y = f b) :
    ((decide (k + 1 ≤ q ∧ q < k + 1 + g.length) && f (g.getD (q - (k + 1)) 0)) || (y && decide (q = k))) =
      (decide (k ≤ q ∧ q < k + (b :: g).length) && f ((b :: g).getD (q - k) 0)) := by
  by_cases h : q = k
  · subst h
    simp [hy rfl]
  · by_cases hlt : q < k
    · have h1 : ¬ (k + 1 ≤ q ∧ q < k + 1 + g.length) := by omega
      have h2 : ¬ (k ≤ q ∧ q < k + (b :: g).length) := by omega
      rw [decide_eq_false h1, decide_eq_false h2, decide_eq_false h]
      simp
    · obtain ⟨d, rfl⟩ : ∃ d, q = k + 1 + d := ⟨q - (k + 1), by omega⟩
      have h4 : k + 1 + d - k = d + 1 := by omega
      have h5 : k + 1 + d - (k + 1) = d := by omega
      have h6 : (k + 1 ≤ k + 1 + d ∧ k + 1 + d < k + 1 + g.length) ↔
          (k ≤ k + 1 + d ∧ k + 1 + d < k + (b :: g).length) := by simp only [List.length_cons]; omega
      simp only [h, h4, h5, h6, decide_false, Bool.and_false, Bool.or_false, List.getD_cons_succ]

/-- Everything the slots of a group from `k` on give: no transformed value has bit 7 set, the payload is the symbols of the
low six bits, and the mark holds `n[6]` and the sign of each slot present and nothing else (R85 to R87). -/
theorem encodeSlots_some {k : Nat} {g payload : List Byte} {mark : Value} (hk : k + g.length ≤ slots form)
    (h : encodeSlots form F T key k g = some (mark, payload)) :
    (∀ j, (hj : j < g.length) → signBit (transformed form T key (k + j) g[j]) = false) ∧
    payload.length = g.length ∧
    (∀ j, (hj : j < g.length) → payload[j]? = some (readFwd F (lowSix (transformed form T key (k + j) g[j])))) ∧
    (∀ q, q < slots form → mark.getLsbD (rangeBit form q) =
      (decide (k ≤ q ∧ q < k + g.length) && bitSix (transformed form T key q (g.getD (q - k) 0)))) ∧
    (form = .general → ∀ q, q < 3 → mark.getLsbD (2 * q + 1) =
      (decide (k ≤ q ∧ q < k + g.length) && signFlag form (g.getD (q - k) 0))) := by
  induction g generalizing k mark payload with
  | nil =>
    simp only [encodeSlots, Option.some.injEq, Prod.mk.injEq] at h
    obtain ⟨rfl, rfl⟩ := h
    exact ⟨by simp, rfl, by simp, fun q _ => by simp, fun _ q _ => by simp⟩
  | cons b g ih =>
    rw [encodeSlots] at h
    split at h
    · cases h
    rename_i hb
    simp only [List.length_cons] at hk
    split at h
    · cases h
    rename_i mark' payload' e
    simp only [Option.some.injEq, Prod.mk.injEq] at h
    obtain ⟨rfl, rfl⟩ := h
    obtain ⟨i1, i2, i3, i4, i5⟩ := ih (by omega) e
    refine ⟨?_, by simp [i2], ?_, ?_, ?_⟩
    · intro j hj
      cases j with
      | zero => simpa using hb
      | succ j =>
        have := i1 j (by simpa using hj)
        rwa [show k + (j + 1) = k + 1 + j by omega]
    · intro j hj
      cases j with
      | zero => simp
      | succ j =>
        have := i3 j (by simpa using hj)
        simpa [show k + (j + 1) = k + 1 + j by omega] using this
    · intro q hq
      rw [markSlot_range form k q _ _ _ hq, i4 q hq]
      exact present_cons (fun x => bitSix (transformed form T key q x)) (fun e => by rw [e])
    · intro hform q hq
      subst hform
      have hk3 : k + (g.length + 1) ≤ 3 := hk
      rw [markSlot_sign k q _ _ _ hq, i5 rfl q hq]
      exact present_cons (fun x => signFlag .general x) (fun _ => rfl)

/-- The slots of a group give a block unless some transformed value has bit 7 set (R156, R180). -/
theorem encodeSlots_none {k : Nat} {g : List Byte} : encodeSlots form F T key k g = none ↔
    ∃ j, ∃ hj : j < g.length, signBit (transformed form T key (k + j) g[j]) = true := by
  induction g generalizing k with
  | nil => simp [encodeSlots]
  | cons b g ih =>
    rw [encodeSlots]
    constructor
    · intro h
      split at h
      · rename_i hb
        exact ⟨0, by simp, by simpa using hb⟩
      · split at h
        · rename_i e
          obtain ⟨j, hj, hs⟩ := ih.1 e
          exact ⟨j + 1, by simpa using hj, by simpa [show k + (j + 1) = k + 1 + j by omega] using hs⟩
        · cases h
    · rintro ⟨j, hj, hs⟩
      split
      · rfl
      · rename_i hb
        cases j with
        | zero => exact absurd (by simpa using hs) hb
        | succ j =>
          have : encodeSlots form F T key (k + 1) g = none :=
            ih.2 ⟨j, by simpa using hj, by simpa [show k + (j + 1) = k + 1 + j by omega] using hs⟩
          rw [this]

/-- A block is a mark symbol and one payload symbol for each byte of its group. -/
theorem encodeGroup_length {g block : List Byte} (hg : g.length ≤ slots form)
    (h : encodeGroup form F T key g = some block) : block.length = g.length + 1 := by
  unfold encodeGroup at h
  split at h
  · cases h
  · rename_i mark payload e
    cases h
    have := (encodeSlots_some (k := 0) (by omega) e).2.1
    simp [this]

/-- The blocks of a non-empty input: the block of its first group, then the blocks of the rest. -/
theorem encodeGroups_pieces {l blocks : List Byte} (hl : l ≠ [])
    (h : encodeGroups form F T key (pieces (slots form) l) = some blocks) :
    ∃ block rest, encodeGroup form F T key (l.take (slots form)) = some block ∧
      encodeGroups form F T key (pieces (slots form) (l.drop (slots form))) = some rest ∧ blocks = block ++ rest := by
  rw [pieces_of_ne_nil (slots_pos form) hl, encodeGroups] at h
  split at h
  · rename_i block rest e1 e2
    cases h
    exact ⟨block, rest, e1, e2, rfl⟩
  · cases h

/-- The length of the blocks of an input of length L: L + ceil(L / slots) (R82, R83). -/
theorem encodeGroups_length {l blocks : List Byte}
    (h : encodeGroups form F T key (pieces (slots form) l) = some blocks) :
    blocks.length = l.length + (l.length + slots form - 1) / slots form := by
  have hs := slots_pos form
  induction l using pieces_induction hs generalizing blocks with
  | nil =>
    cases h
    have : (0 + slots form - 1) / slots form = 0 := Nat.div_eq_of_lt (by omega)
    simpa using this.symm
  | piece l hl ih =>
    obtain ⟨block, rest, e1, e2, rfl⟩ := encodeGroups_pieces hl h
    have hpos : 0 < l.length := List.length_pos_iff.2 hl
    have b := encodeGroup_length (by simp) e1
    have r := ih e2
    simp only [List.length_take, List.length_drop] at b r
    simp only [List.length_append, b, r]
    cases form
    · simp only [slots, Config.genGroup] at *; omega
    · simp only [slots, Config.ascGroup] at *; omega

theorem div_mod_add {m d : Nat} (hm : 0 < m) : (m + d) / m = d / m + 1 ∧ (m + d) % m = d % m :=
  ⟨by rw [Nat.add_comm, Nat.add_div_right _ hm], by rw [Nat.add_mod_left]⟩

/-- The payload symbols of an encoded input: byte `p` gives the symbol at position `(m + 1) * (p / m) + 1 + p % m` of the
blocks (R82, R83, R85), and its transformed value has bit 7 clear. -/
theorem encodeGroups_payload {l blocks : List Byte}
    (h : encodeGroups form F T key (pieces (slots form) l) = some blocks) {p : Nat} (hp : p < l.length) :
    signBit (transformed form T key (p % slots form) l[p]) = false ∧
    blocks[(slots form + 1) * (p / slots form) + 1 + p % slots form]? =
      some (readFwd F (lowSix (transformed form T key (p % slots form) l[p]))) := by
  have hs := slots_pos form
  induction l using pieces_induction hs generalizing blocks p with
  | nil => simp at hp
  | piece l hl ih =>
    obtain ⟨block, rest, e1, e2, rfl⟩ := encodeGroups_pieces hl h
    have hb := encodeGroup_length (by simp) e1
    simp only [List.length_take] at hb
    by_cases hlt : p < slots form
    · have hpm : p % slots form = p := Nat.mod_eq_of_lt hlt
      have hpd : p / slots form = 0 := Nat.div_eq_of_lt hlt
      unfold encodeGroup at e1
      split at e1
      · cases e1
      rename_i mark payload es
      cases e1
      obtain ⟨h1, h2, h3, -, -⟩ := encodeSlots_some (k := 0) (by simp) es
      have hp' : p < (l.take (slots form)).length := by simp; omega
      have h1' := h1 p hp'
      have h3' := h3 p hp'
      simp only [Nat.zero_add, List.getElem_take] at h1' h3'
      rw [hpm, hpd]
      refine ⟨h1', ?_⟩
      rw [List.getElem?_append_left (by simp [h2]; omega)]
      simpa [Nat.add_comm] using h3'
    · obtain ⟨d, rfl⟩ : ∃ d, p = slots form + d := ⟨p - slots form, by omega⟩
      obtain ⟨hd, hm⟩ := div_mod_add (d := d) hs
      have hd' : d < (l.drop (slots form)).length := by simp; omega
      obtain ⟨i1, i2⟩ := ih e2 hd'
      simp only [List.getElem_drop] at i1 i2
      rw [hm, hd]
      refine ⟨i1, ?_⟩
      have hbl : block.length = slots form + 1 := by omega
      rw [List.getElem?_append_right (by rw [hbl, Nat.mul_add]; omega), ← i2]
      congr 1
      rw [hbl, Nat.mul_add]
      omega

/-- The mark symbols of an encoded input: group `g` has its mark at position `(m + 1) * g` of the blocks, holding `n[6]` (and
in the general form the sign) of each slot present and nothing else (R86, R87). -/
theorem encodeGroups_mark {l blocks : List Byte}
    (h : encodeGroups form F T key (pieces (slots form) l) = some blocks) {g : Nat} (hg : slots form * g < l.length) :
    ∃ mark, blocks[(slots form + 1) * g]? = some (readFwd F mark) ∧
      (∀ q, q < slots form → mark.getLsbD (rangeBit form q) =
        (decide (slots form * g + q < l.length) &&
          bitSix (transformed form T key q (l.getD (slots form * g + q) 0)))) ∧
      (form = .general → ∀ q, q < 3 → mark.getLsbD (2 * q + 1) =
        (decide (slots form * g + q < l.length) && signFlag form (l.getD (slots form * g + q) 0))) := by
  have hs := slots_pos form
  induction l using pieces_induction hs generalizing blocks g with
  | nil => simp at hg
  | piece l hl ih =>
    obtain ⟨block, rest, e1, e2, rfl⟩ := encodeGroups_pieces hl h
    have hb := encodeGroup_length (by simp) e1
    simp only [List.length_take] at hb
    cases g with
    | zero =>
      unfold encodeGroup at e1
      split at e1
      · cases e1
      rename_i mark payload es
      cases e1
      obtain ⟨-, -, -, h4, h5⟩ := encodeSlots_some (k := 0) (by simp) es
      have hget : ∀ q, q < slots form → (l.take (slots form)).getD q 0 = l.getD q 0 := by
        intro q hq
        simp [List.getD, hq]
      have hlen : ∀ q, q < slots form → (q < (l.take (slots form)).length ↔ q < l.length) := by
        intro q hq
        simp
        omega
      refine ⟨mark, by simp, ?_, ?_⟩
      · intro q hq
        have := h4 q hq
        simp only [Nat.zero_le, true_and, Nat.zero_add, Nat.sub_zero, hget q hq, hlen q hq] at this
        simpa using this
      · intro hf q hq
        have hq' : q < slots form := by rw [hf]; exact hq
        have := h5 hf q hq
        simp only [Nat.zero_le, true_and, Nat.zero_add, Nat.sub_zero, hget q hq', hlen q hq'] at this
        simpa using this
    | succ g =>
      have hmul : slots form * (g + 1) = slots form + slots form * g := by rw [Nat.mul_add]; omega
      have hg' : slots form * g < (l.drop (slots form)).length := by simp; omega
      obtain ⟨mark, i1, i2, i3⟩ := ih e2 hg'
      have hbl : block.length = slots form + 1 := by omega
      have hget : ∀ q, (l.drop (slots form)).getD (slots form * g + q) 0 = l.getD (slots form * (g + 1) + q) 0 := by
        intro q
        rw [hmul]
        simp [List.getD, Nat.add_assoc]
      have hlen : ∀ q, (slots form * g + q < (l.drop (slots form)).length ↔ slots form * (g + 1) + q < l.length) := by
        intro q
        rw [hmul, List.length_drop]
        omega
      refine ⟨mark, ?_, ?_, ?_⟩
      · rw [List.getElem?_append_right (by rw [hbl, Nat.mul_add]; omega), ← i1]
        congr 1
        rw [hbl, Nat.mul_add]
        omega
      · intro q hq
        rw [i2 q hq, hget q]
        simp only [hlen q]
      · intro hf q hq
        rw [i3 hf q hq, hget q]
        simp only [hlen q]

/-- An input has no encoding exactly when some transformed value has bit 7 set (R156, R180). -/
theorem encodeGroups_none {l : List Byte} : encodeGroups form F T key (pieces (slots form) l) = none ↔
    ∃ p, ∃ hp : p < l.length, signBit (transformed form T key (p % slots form) l[p]) = true := by
  have hs := slots_pos form
  constructor
  · intro h
    induction l using pieces_induction hs with
    | nil => simp [encodeGroups] at h
    | piece l hl ih =>
      rw [pieces_of_ne_nil hs hl, encodeGroups] at h
      by_cases hd : encodeGroups form F T key (pieces (slots form) (l.drop (slots form))) = none
      · obtain ⟨d, hd1, hd2⟩ := ih hd
        have hd1' : d + slots form < l.length := by simp at hd1; omega
        refine ⟨slots form + d, by omega, ?_⟩
        rw [(div_mod_add hs).2]
        simpa using hd2
      · cases hg : encodeGroup form F T key (l.take (slots form)) with
        | none =>
          unfold encodeGroup at hg
          split at hg
          · rename_i hslots
            obtain ⟨j, hj, hsig⟩ := encodeSlots_none.1 hslots
            have hj' : j < slots form ∧ j < l.length := by simp at hj; omega
            refine ⟨j, hj'.2, ?_⟩
            rw [Nat.mod_eq_of_lt hj'.1]
            simpa using hsig
          · cases hg
        | some block =>
          obtain ⟨rest, hrest⟩ := Option.ne_none_iff_exists'.1 hd
          rw [hg, hrest] at h
          cases h
  · rintro ⟨p, hp, hsig⟩
    cases he : encodeGroups form F T key (pieces (slots form) l) with
    | none => rfl
    | some blocks =>
      have := (encodeGroups_payload he hp).1
      rw [hsig] at this
      cases this

/-- Every byte of the blocks is a symbol of the alphabet (R81, R158). -/
theorem encodeGroups_symbols {l blocks : List Byte}
    (h : encodeGroups form F T key (pieces (slots form) l) = some blocks) {b : Byte} (hb : b ∈ blocks) :
    b ∈ F.toList := by
  have hs := slots_pos form
  induction l using pieces_induction hs generalizing blocks with
  | nil =>
    cases h
    simp at hb
  | piece l hl ih =>
    obtain ⟨block, rest, e1, e2, rfl⟩ := encodeGroups_pieces hl h
    rcases List.mem_append.1 hb with hb | hb
    · unfold encodeGroup at e1
      split at e1
      · cases e1
      rename_i mark payload es
      cases e1
      rcases List.mem_cons.1 hb with rfl | hb
      · exact readFwd_mem F mark
      · obtain ⟨-, h2, h3, -, -⟩ := encodeSlots_some (k := 0) (by simp) es
        obtain ⟨j, hj, rfl⟩ := List.getElem_of_mem hb
        have := h3 j (by omega)
        rw [List.getElem?_eq_getElem hj, Option.some.injEq] at this
        rw [this]
        exact readFwd_mem F _
    · exact ih e2 hb

/-- Encoding depends on `T` only at first arguments in 0..127 (R125), for an input the form accepts. -/
theorem encodeGroups_congr {T' : Byte → Byte → Byte} (hT : ∀ x : Byte, x.toNat < 128 → T x key = T' x key)
    (gs : List (List Byte)) (hgs : form = .general ∨ ∀ g ∈ gs, ∀ b ∈ g, signBit b = false) :
    encodeGroups form F T key gs = encodeGroups form F T' key gs := by
  have htr : ∀ k b, (form = .general ∨ signBit b = false) →
      transformed form T key k b = transformed form T' key k b := by
    intro k b hb
    unfold transformed
    rw [hT _ (signBit_eq_false_iff.1 (signBit_fold form hb))]
  have hslots : ∀ (g : List Byte) (k : Nat), (form = .general ∨ ∀ b ∈ g, signBit b = false) →
      encodeSlots form F T key k g = encodeSlots form F T' key k g := by
    intro g
    induction g with
    | nil => intro k _; rfl
    | cons b g ih =>
      intro k hg
      have hb : form = .general ∨ signBit b = false := hg.imp_right fun h => h b (by simp)
      have hg' : form = .general ∨ ∀ b ∈ g, signBit b = false := hg.imp_right fun h b hb => h b (by simp [hb])
      rw [encodeSlots, encodeSlots, htr k b hb, ih (k + 1) hg']
  induction gs with
  | nil => rfl
  | cons g gs ih =>
    have hg : form = .general ∨ ∀ b ∈ g, signBit b = false := hgs.imp_right fun h => h g (by simp)
    rw [encodeGroups, encodeGroups, encodeGroup, encodeGroup, hslots g 0 hg,
      ih (hgs.imp_right fun h g hg => h g (by simp [hg]))]

end Encoding

/-! ## Decoding -/

theorem decodeSlots_length (form : Form) (N : Vector Byte 256) (I : Byte → Byte → Byte) (key mark : Byte) (k : Nat)
    (l : List Byte) : (decodeSlots form N I key mark k l).length = l.length := by
  induction l generalizing k with
  | nil => rfl
  | cons s l ih => simp [decodeSlots, ih]

theorem getElem?_decodeSlots (form : Form) (N : Vector Byte 256) (I : Byte → Byte → Byte) (key mark : Byte) (k : Nat)
    (l : List Byte) (j : Nat) : (decodeSlots form N I key mark k l)[j]? =
      (l[j]?).map fun s => decodeSlot form I key mark (k + j) (readInv N s) := by
  induction l generalizing k j with
  | nil => simp [decodeSlots]
  | cons s l ih =>
    cases j with
    | zero => simp [decodeSlots]
    | succ j => simp [decodeSlots, ih, show k + 1 + j = k + (j + 1) by omega]

section Decoding

variable {form : Form} {N : Vector Byte 256} {I : Byte → Byte → Byte} {key : Byte}

/-- The blocks of a non-empty body: its first block, then the rest. -/
theorem decodeBlocks_pieces {body : List Byte} (h : body ≠ []) :
    decodeBlocks form N I key (pieces (slots form + 1) body) =
      decodeBlock form N I key (body.take (slots form + 1)) ++
        decodeBlocks form N I key (pieces (slots form + 1) (body.drop (slots form + 1))) := by
  rw [pieces_of_ne_nil (Nat.succ_pos _) h, decodeBlocks]

theorem decodeBlock_length (block : List Byte) : (decodeBlock form N I key block).length = block.length - 1 := by
  cases block with
  | nil => rfl
  | cons m payload => simp [decodeBlock, decodeSlots_length]

/-- A body of length B gives `B - ceil(B / (m + 1))` bytes (R161, R185). -/
theorem decodeBlocks_length (body : List Byte) :
    (decodeBlocks form N I key (pieces (slots form + 1) body)).length =
      body.length - (body.length + slots form) / (slots form + 1) := by
  induction body using pieces_induction (Nat.succ_pos (slots form)) with
  | nil => simp [decodeBlocks]
  | piece body hb ih =>
    have hpos : 0 < body.length := List.length_pos_iff.2 hb
    rw [decodeBlocks_pieces hb, List.length_append, decodeBlock_length, ih]
    simp only [List.length_take, List.length_drop]
    cases form
    · simp only [slots, Config.genGroup] at *; omega
    · simp only [slots, Config.ascGroup] at *; omega

/-- The byte a decoder puts at position `p`: slot `p % m` of block `p / m` (R161, R185). -/
theorem getElem?_decodeBlocks {body : List Byte} {p : Nat}
    (hp : p < body.length - (body.length + slots form) / (slots form + 1)) :
    (decodeBlocks form N I key (pieces (slots form + 1) body))[p]? =
      some (decodeSlot form I key (readInv N (body.getD ((slots form + 1) * (p / slots form)) 0)) (p % slots form)
        (readInv N (body.getD ((slots form + 1) * (p / slots form) + 1 + p % slots form) 0))) := by
  have hs := slots_pos form
  induction body using pieces_induction (Nat.succ_pos (slots form)) generalizing p with
  | nil => simp at hp
  | piece body hb ih =>
    have hpos : 0 < body.length := List.length_pos_iff.2 hb
    rw [decodeBlocks_pieces hb]
    have hbl : (decodeBlock form N I key (body.take (slots form + 1))).length =
        min (slots form + 1) body.length - 1 := by
      rw [decodeBlock_length, List.length_take]
    by_cases hlt : p < slots form
    · have hpm : p % slots form = p := Nat.mod_eq_of_lt hlt
      have hpd : p / slots form = 0 := Nat.div_eq_of_lt hlt
      have hp1 : p + 1 < body.length := by
        cases form
        · simp only [slots, Config.genGroup] at *; omega
        · simp only [slots, Config.ascGroup] at *; omega
      rw [List.getElem?_append_left (by omega), hpm, hpd]
      obtain ⟨m, rest, rfl⟩ : ∃ m rest, body = m :: rest := by
        cases body with
        | nil => exact absurd rfl hb
        | cons m rest => exact ⟨m, rest, rfl⟩
      have hp2 : p < rest.length := by simpa using hp1
      simp only [List.take_succ_cons, decodeBlock, getElem?_decodeSlots, Nat.zero_add]
      rw [List.getElem?_take_of_lt hlt, List.getElem?_eq_getElem hp2]
      simp [Nat.add_comm 1 p, List.getD, hp2]
    · obtain ⟨d, rfl⟩ : ∃ d, p = slots form + d := ⟨p - slots form, by omega⟩
      obtain ⟨hd, hm⟩ := div_mod_add (d := d) hs
      have hlong : slots form + 1 < body.length := by
        cases form
        · simp only [slots, Config.genGroup] at *; omega
        · simp only [slots, Config.ascGroup] at *; omega
      have hd' : d < (body.drop (slots form + 1)).length -
          ((body.drop (slots form + 1)).length + slots form) / (slots form + 1) := by
        rw [List.length_drop]
        cases form
        · simp only [slots, Config.genGroup] at *; omega
        · simp only [slots, Config.ascGroup] at *; omega
      have := ih hd'
      rw [List.getElem?_append_right (by omega), hbl,
        show slots form + d - (min (slots form + 1) body.length - 1) = d by omega, this, hm, hd]
      have g1 : ∀ x, (body.drop (slots form + 1)).getD x 0 = body.getD (slots form + 1 + x) 0 := by
        intro x
        simp [List.getD]
      rw [g1, g1, Nat.mul_add, Nat.mul_one,
        show slots form + 1 + (slots form + 1) * (d / slots form) =
          (slots form + 1) * (d / slots form) + (slots form + 1) from Nat.add_comm _ _,
        show slots form + 1 + ((slots form + 1) * (d / slots form) + 1 + d % slots form) =
          (slots form + 1) * (d / slots form) + (slots form + 1) + 1 + d % slots form by omega]

/-- A decoder depends on `I` only at first arguments in 0..127 (R125), when the table holds values of symbols. -/
theorem decodeSlot_congr {I' : Byte → Byte → Byte} (hI : ∀ x : Byte, x.toNat < 128 → I x key = I' x key) {mark v : Byte}
    {k : Nat} (hk : k < 8) (hv : v.toNat < 64) : decodeSlot form I key mark k v = decodeSlot form I' key mark k v := by
  unfold decodeSlot
  rw [hI]
  rw [← signBit_eq_false_iff, signBit_xor_slot _ hk, signBit_eq_false_iff]
  unfold rebuilt
  split <;> (simp; omega)

end Decoding

/-! ## Round trip -/

section RoundTrip

variable {form : Form} {F : Vector Byte 64} {N : Vector Byte 256} {T I : Byte → Byte → Byte} {key : Byte}

/-- One slot decodes to the byte it was encoded from (R166, R190). -/
theorem decodeSlot_transformed (hN : ∀ v : Value, readInv N (readFwd F v) = v.setWidth 8)
    (hI : ∀ x : Byte, x.toNat < 128 → I (T x key) key = x) {b mark : Byte} {k : Nat}
    (hform : form = .general ∨ signBit b = false)
    (hs : signBit (transformed form T key k b) = false)
    (hr : mark.getLsbD (rangeBit form k) = bitSix (transformed form T key k b))
    (hm : markSign form mark k = signFlag form b) :
    decodeSlot form I key mark k (readInv N (readFwd F (lowSix (transformed form T key k b)))) = b := by
  rw [decodeSlot, hN, hr, hm, rebuilt_parts hs, transformed, BitVec.xor_assoc, BitVec.xor_self, BitVec.xor_zero,
    hI _ (signBit_eq_false_iff.1 (signBit_fold form hform)), foldSign_foldSign]

/-- A block decodes to the group it was encoded from. -/
theorem decodeBlock_encodeGroup (hN : ∀ v : Value, readInv N (readFwd F v) = v.setWidth 8)
    (hI : ∀ x : Byte, x.toNat < 128 → I (T x key) key = x) {g block : List Byte} (hg : g.length ≤ slots form)
    (hform : form = .general ∨ ∀ b ∈ g, signBit b = false)
    (h : encodeGroup form F T key g = some block) : decodeBlock form N I key block = g := by
  unfold encodeGroup at h
  split at h
  · cases h
  rename_i mark payload es
  cases h
  obtain ⟨h1, h2, h3, h4, h5⟩ := encodeSlots_some (k := 0) (by omega) es
  rw [decodeBlock, hN]
  apply List.ext_getElem?
  intro j
  rw [getElem?_decodeSlots, Nat.zero_add]
  by_cases hj : j < g.length
  · have hjs : j < slots form := by omega
    have h1' := h1 j hj
    have h3' := h3 j hj
    have h4' := h4 j hjs
    have hget : g.getD j 0 = g[j] := by simp [List.getD, hj]
    simp only [Nat.zero_add, Nat.zero_le, true_and, Nat.sub_zero, hj, decide_true, Bool.true_and, hget] at h1' h3' h4'
    rw [h3', List.getElem?_eq_getElem hj, Option.map_some]
    congr 1
    refine decodeSlot_transformed hN hI (hform.imp_right fun hb => hb _ (List.getElem_mem hj)) h1' ?_ ?_
    · rw [← h4']
      have : rangeBit form j < 6 := by
        cases form <;> (simp only [slots, Config.genGroup, Config.ascGroup, rangeBit] at *; omega)
      simp [BitVec.getLsbD_setWidth]
      omega
    · cases form
      · have hj3 : j < 3 := hjs
        have h5' := h5 rfl j hj3
        simp only [Nat.zero_add, Nat.zero_le, true_and, Nat.sub_zero, hj, decide_true, Bool.true_and, hget] at h5'
        rw [← h5', markSign]
        simp [BitVec.getLsbD_setWidth]
        omega
      · rfl
  · rw [List.getElem?_eq_none (by omega : payload.length ≤ j), List.getElem?_eq_none (by omega : g.length ≤ j)]
    rfl

/-- The blocks of an input decode to the input (R166, R190). -/
theorem decodeBlocks_encodeGroups (hN : ∀ v : Value, readInv N (readFwd F v) = v.setWidth 8)
    (hI : ∀ x : Byte, x.toNat < 128 → I (T x key) key = x) {l blocks : List Byte}
    (hform : form = .general ∨ ∀ b ∈ l, signBit b = false)
    (h : encodeGroups form F T key (pieces (slots form) l) = some blocks) :
    decodeBlocks form N I key (pieces (slots form + 1) blocks) = l := by
  have hs := slots_pos form
  induction l using pieces_induction hs generalizing blocks with
  | nil =>
    cases h
    rfl
  | piece l hl ih =>
    obtain ⟨block, rest, e1, e2, rfl⟩ := encodeGroups_pieces hl h
    have hpos : 0 < l.length := List.length_pos_iff.2 hl
    have hb := encodeGroup_length (by simp) e1
    simp only [List.length_take] at hb
    have hrest := encodeGroups_length e2
    have hne : block ≠ [] := by
      intro e
      simp [e] at hb
    have hfull : block.length = slots form + 1 ∨ (block.length ≤ slots form + 1 ∧ rest = []) := by
      by_cases hfl : slots form ≤ l.length
      · left; omega
      · right
        refine ⟨by omega, ?_⟩
        have hd : l.drop (slots form) = [] := List.drop_of_length_le (by omega)
        rw [hd] at e2
        cases e2
        rfl
    rw [pieces_append (Nat.succ_pos _) hne hfull, decodeBlocks,
      decodeBlock_encodeGroup hN hI (by simp) (hform.imp_right fun hf b hb => hf b (List.mem_of_mem_take hb)) e1,
      ih (hform.imp_right fun hf b hb => hf b (List.mem_of_mem_drop hb)) e2, List.take_append_drop]

/-- The length of an encoded message is well formed (R88). -/
theorem not_malformed_of_encoded {l blocks : List Byte}
    (h : encodeGroups form F T key (pieces (slots form) l) = some blocks) :
    malformed form (key :: blocks).length = false := by
  have := encodeGroups_length h
  rw [malformed, decide_eq_false_iff_not, List.length_cons, this]
  cases form
  · simp only [slots, Config.genGroup] at *; omega
  · simp only [slots, Config.ascGroup] at *; omega

end RoundTrip

/-- The message of a non-empty input has the length of R157 and R181. -/
theorem encodeMessage_length {form : Form} {F : Vector Byte 64} {T : Byte → Byte → Byte} {key : Byte} {l message : List Byte}
    (hl : l ≠ []) (h : encodeMessage form F T key l = some message) :
    message.length = messageLength (slots form) l.length := by
  unfold encodeMessage at h
  split at h
  · cases h
  · rename_i blocks e
    cases h
    have : l.length ≠ 0 := by simpa using hl
    rw [messageLength, if_neg this, List.length_cons, encodeGroups_length e]

end Sys2Proof.Machine
end

