-- ==== Sys2Proof/Laws/Decode.lean ====
section
/-! SUPPORT. The fields of a word made of three bytes (R71), for the encoder and the decoder alike. -/

namespace Sys2Proof

/-- A bit of a word made of three bytes (R71, R8). -/
theorem getLsbD_word (op a b : Byte) (i : Nat) : ((op ++ a : BitVec 16) ++ b : CmdWord).getLsbD i =
    if i < 8 then b.getLsbD i else if i - 8 < 8 then a.getLsbD (i - 8) else op.getLsbD (i - 8 - 8) := by
  have h := BitVec.getLsbD_append (x := op ++ a) (y := b) (i := i)
  rw [BitVec.getLsbD_append (x := op) (y := a) (i := i - 8)] at h
  exact h

@[simp] theorem opField_append (op a b : Byte) : opField ((op ++ a : BitVec 16) ++ b) = op := by
  apply BitVec.eq_of_getLsbD_eq
  intro i hi
  rw [opField, BitVec.getLsbD_extractLsb', getLsbD_word, if_neg (by omega), if_neg (by omega),
    show 16 + i - 8 - 8 = i by omega]
  simp [hi]

@[simp] theorem aField_append (op a b : Byte) : aField ((op ++ a : BitVec 16) ++ b) = a := by
  apply BitVec.eq_of_getLsbD_eq
  intro i hi
  rw [aField, BitVec.getLsbD_extractLsb', getLsbD_word, if_neg (by omega), if_pos (by omega),
    show 8 + i - 8 = i by omega]
  simp [hi]

@[simp] theorem bField_append (op a b : Byte) : bField ((op ++ a : BitVec 16) ++ b) = b := by
  apply BitVec.eq_of_getLsbD_eq
  intro i hi
  rw [bField, BitVec.getLsbD_extractLsb', getLsbD_word, if_pos (by omega), Nat.zero_add]
  simp [hi]

@[simp] theorem enableBit_append (op a b : Byte) : enableBit ((op ++ a : BitVec 16) ++ b) = a.getLsbD 0 := by
  rw [enableBit, getLsbD_word, if_neg (by omega), if_pos (by omega)]

/-- A word is the three bytes in its fields. -/
theorem fields_append (w : CmdWord) : (opField w ++ aField w : BitVec 16) ++ bField w = w := by
  apply BitVec.eq_of_getLsbD_eq
  intro i hi
  rw [getLsbD_word, opField, aField, bField, BitVec.getLsbD_extractLsb', BitVec.getLsbD_extractLsb',
    BitVec.getLsbD_extractLsb']
  split
  · rename_i h
    simp [h]
  · split
    · rename_i h1 h2
      simp [h2, show 8 + (i - 8) = i by omega]
    · simp [show 16 + (i - 8 - 8) = i by omega, show i - 8 - 8 < 8 by omega]

theorem opField_encode (i : Instr) : opField (encode i) = i.opcode := opField_append _ _ _

theorem aField_encode (i : Instr) : aField (encode i) = i.operandA := aField_append _ _ _

theorem bField_encode (i : Instr) : bField (encode i) = i.operandB := bField_append _ _ _

theorem enableBit_encode (i : Instr) : enableBit (encode i) = i.operandA.getLsbD 0 := enableBit_append _ _ _

end Sys2Proof
end

