-- ==== Sys2Proof/Laws/Exec.lean ====
section
/-! SUPPORT. Everything each command can do, said once per meaning: the cases of its rule, with the state each ends in. Later
proofs cite these and never unfold a meaning. -/

namespace Sys2Proof.Machine

theorem execSetalpha_cases (s : State) :
    (∃ F : Vector Byte 64, F.toList = s.inp ∧ s.inp.Nodup ∧
      execSetalpha s = .next { s with fwd := F, inv := rebuildInv F, alphaValid := true, status := statusOk }) ∨
    ((s.inp.length ≠ 64 ∨ ¬ s.inp.Nodup) ∧ execSetalpha s = .next (raise .invalidAlphabet .none s)) := by
  cases h : alphabetOf s.inp with
  | none => exact .inr ⟨alphabetOf_eq_none.1 h, by simp [execSetalpha, h]⟩
  | some F =>
    obtain ⟨h1, h2⟩ := alphabetOf_eq_some.1 h
    exact .inl ⟨F, h1, h2, by simp [execSetalpha, h, installAlphabet, State.succeed]⟩

theorem execShuffle_cases (s : State) :
    (s.alphaValid = true ∧ execShuffle s = .next { s with
      fwd := (shuffleFrom 63 s.fwd s.rnd).1, inv := rebuildInv (shuffleFrom 63 s.fwd s.rnd).1,
      rnd := (shuffleFrom 63 s.fwd s.rnd).2, status := statusOk }) ∨
    (s.alphaValid = false ∧ execShuffle s = .next (raise .invalidAlphabet .none s)) := by
  cases h : s.alphaValid
  · exact .inr ⟨rfl, by simp [execShuffle, h]⟩
  · exact .inl ⟨rfl, by simp [execShuffle, h, installAlphabet, State.succeed]⟩

theorem execValueof_cases (a : Byte) (s : State) :
    (s.alphaValid = false ∧ execValueof a s = .next (raise .invalidAlphabet .res s)) ∨
    (s.alphaValid = true ∧ isSymbol s.inv a = false ∧ execValueof a s = .next (raise .unknownSymbol .res s)) ∨
    (s.alphaValid = true ∧ isSymbol s.inv a = true ∧ execValueof a s = .next (s.succeedRes (readInv s.inv a))) := by
  cases h : s.alphaValid <;> cases h' : isSymbol s.inv a <;> simp [execValueof, h, h']

theorem execSymbolof_cases (a : Byte) (s : State) :
    (64 ≤ a.toNat ∧ execSymbolof a s = .next (illegalCommand s)) ∨
    (a.toNat < 64 ∧ s.alphaValid = false ∧ execSymbolof a s = .next (raise .invalidAlphabet .res s)) ∨
    (a.toNat < 64 ∧ s.alphaValid = true ∧ execSymbolof a s = .next (s.succeedRes (readFwd s.fwd (lowSix a)))) := by
  by_cases h : 64 ≤ a.toNat
  · exact .inl ⟨h, by simp [execSymbolof, h]⟩
  · cases h' : s.alphaValid
    · exact .inr (.inl ⟨by omega, rfl, by simp [execSymbolof, h, h']⟩)
    · exact .inr (.inr ⟨by omega, rfl, by simp [execSymbolof, h, h']⟩)

theorem execSetxform_cases (s : State) :
    (UndoesOnDomain s.xcand s.params.probeKey ∧
      execSetxform s = .next { s with xform := s.xcand, status := statusOk }) ∨
    (¬ UndoesOnDomain s.xcand s.params.probeKey ∧ execSetxform s = .next (raise .invalidTransform .none s)) := by
  by_cases h : UndoesOnDomain s.xcand s.params.probeKey
  · exact .inl ⟨h, by simp [execSetxform, transformAccepted_iff.2 h, State.succeed]⟩
  · refine .inr ⟨h, ?_⟩
    have : transformAccepted s.xcand s.params.probeKey = false := by
      rw [Bool.eq_false_iff]
      exact fun e => h (transformAccepted_iff.1 e)
    simp [execSetxform, this]

theorem execSetkey_cases (a : Byte) (s : State) :
    (s.alphaValid = false ∧ execSetkey a s = .next (raise .invalidAlphabet .none s)) ∨
    (s.alphaValid = true ∧ isSymbol s.inv a = false ∧ execSetkey a s = .next (raise .invalidKey .none s)) ∨
    (s.alphaValid = true ∧ isSymbol s.inv a = true ∧
      execSetkey a s = .next { s with fixedKey := a, status := statusOk }) := by
  cases h : s.alphaValid <;> cases h' : isSymbol s.inv a <;> simp [execSetkey, h, h', State.succeed]

/-- The key a command chooses and the random source after it, when key selection succeeds (R140). -/
theorem selectKey_ok {s t : State} {key : Byte} (h : selectKey s = .ok (key, t)) :
    (s.bluff = false ∧ isSymbol s.inv s.fixedKey = true ∧ key = s.fixedKey ∧ t = s) ∨
    (s.bluff = true ∧ key = readFwd s.fwd (BitVec.ofNat 6 (draw 64 s.rnd).1) ∧
      t = { s with rnd := (draw 64 s.rnd).2 }) := by
  rcases selectKey_cases s with ⟨hb, e⟩ | ⟨hb, hk, e⟩ | ⟨hb, hk, e⟩
  · rw [e] at h
    cases h
    exact .inr ⟨hb, rfl, rfl⟩
  · rw [e] at h
    cases h
    exact .inl ⟨hb, hk, rfl, rfl⟩
  · rw [e] at h
    cases h

theorem selectKey_error {s : State} {k : ErrorKind} (h : selectKey s = .error k) :
    s.bluff = false ∧ isSymbol s.inv s.fixedKey = false ∧ k = .invalidKey := by
  rcases selectKey_cases s with ⟨hb, e⟩ | ⟨hb, hk, e⟩ | ⟨hb, hk, e⟩
  · rw [e] at h
    cases h
  · rw [e] at h
    cases h
  · rw [e] at h
    cases h
    exact ⟨hb, hk, rfl⟩

theorem execNextkey_cases (s : State) :
    (s.alphaValid = false ∧ execNextkey s = .next (raise .invalidAlphabet .res s)) ∨
    (s.alphaValid = true ∧ selectKey s = .error .invalidKey ∧ execNextkey s = .next (raise .invalidKey .res s)) ∨
    (s.alphaValid = true ∧ ∃ key t, selectKey s = .ok (key, t) ∧ execNextkey s = .next (t.succeedRes key)) := by
  cases h : s.alphaValid
  · exact .inl ⟨rfl, by simp [execNextkey, h]⟩
  · cases hk : selectKey s with
    | error k =>
      obtain ⟨-, -, rfl⟩ := selectKey_error hk
      exact .inr (.inl ⟨rfl, rfl, by simp [execNextkey, h, hk]⟩)
    | ok p => exact .inr (.inr ⟨rfl, p.1, p.2, rfl, by simp [execNextkey, h, hk]⟩)

/-- An encoder after its first checks: no key, or a key and then no message or a message (R150, R176). -/
theorem encodeSelected_cases (form : Form) (s : State) :
    (selectKey s = .error .invalidKey ∧ encodeSelected form s = raise .invalidKey .out s) ∨
    ∃ key t, selectKey s = .ok (key, t) ∧
      ((encodeGroups form s.fwd s.xform.T key (pieces (slots form) s.inp) = none ∧
          encodeSelected form s = raise .transformRangeEscape .out t) ∨
        ∃ blocks, encodeGroups form s.fwd s.xform.T key (pieces (slots form) s.inp) = some blocks ∧
          encodeSelected form s = t.succeedOut (key :: blocks)) := by
  cases hk : selectKey s with
  | error k =>
    obtain ⟨-, -, rfl⟩ := selectKey_error hk
    exact .inl ⟨rfl, by simp [encodeSelected, hk]⟩
  | ok p =>
    obtain ⟨key, t⟩ := p
    refine .inr ⟨key, t, rfl, ?_⟩
    have ht : t.fwd = s.fwd ∧ t.xform = s.xform ∧ t.inp = s.inp := by
      rcases selectKey_ok hk with ⟨-, -, -, rfl⟩ | ⟨-, -, rfl⟩ <;> exact ⟨rfl, rfl, rfl⟩
    cases he : encodeGroups form s.fwd s.xform.T key (pieces (slots form) s.inp) with
    | none => exact .inl ⟨rfl, by simp [encodeSelected, hk, encodeMessage, ht, he]⟩
    | some blocks => exact .inr ⟨blocks, rfl, by simp [encodeSelected, hk, encodeMessage, ht, he]⟩

theorem execEnc_cases (s : State) :
    (s.inp = [] ∧ execEnc s = .next (s.succeedOut [])) ∨
    (s.inp ≠ [] ∧ s.alphaValid = false ∧ execEnc s = .next (raise .invalidAlphabet .out s)) ∨
    (s.inp ≠ [] ∧ s.alphaValid = true ∧ execEnc s = .next (encodeSelected .general s)) := by
  by_cases hi : s.inp = []
  · exact .inl ⟨hi, by simp [execEnc, hi]⟩
  · cases hv : s.alphaValid
    · exact .inr (.inl ⟨hi, rfl, by simp [execEnc, hi, hv]⟩)
    · exact .inr (.inr ⟨hi, rfl, by simp [execEnc, hi, hv]⟩)

theorem execEnca_cases (s : State) :
    (s.inp = [] ∧ execEnca s = .next (s.succeedOut [])) ∨
    (s.inp ≠ [] ∧ s.alphaValid = false ∧ execEnca s = .next (raise .invalidAlphabet .out s)) ∨
    (s.inp ≠ [] ∧ s.alphaValid = true ∧ (∃ b ∈ s.inp, signBit b = true) ∧
      execEnca s = .next (raise .outOfRangeByte .out s)) ∨
    (s.inp ≠ [] ∧ s.alphaValid = true ∧ (∀ b ∈ s.inp, signBit b = false) ∧
      execEnca s = .next (encodeSelected .ascii s)) := by
  by_cases hi : s.inp = []
  · exact .inl ⟨hi, by simp [execEnca, hi]⟩
  · cases hv : s.alphaValid
    · exact .inr (.inl ⟨hi, rfl, by simp [execEnca, hi, hv]⟩)
    · cases hs : s.inp.any signBit
      · refine .inr (.inr (.inr ⟨hi, rfl, by simpa using hs, ?_⟩))
        simp only [execEnca, List.isEmpty_iff, hi, hv, hs, if_false, Bool.not_true, Bool.false_eq_true]
      · refine .inr (.inr (.inl ⟨hi, rfl, by simpa using hs, ?_⟩))
        simp only [execEnca, List.isEmpty_iff, hi, hv, hs, if_false, Bool.not_true, Bool.false_eq_true, if_true]

/-- A decoder on a non-empty text (R160, R184). -/
theorem decodeChecked_cases (form : Form) (s : State) :
    (s.alphaValid = false ∧ decodeChecked form s = raise .invalidAlphabet .out s) ∨
    (s.alphaValid = true ∧ malformed form s.inp.length = true ∧
      decodeChecked form s = raise .malformedMessage .out s) ∨
    (s.alphaValid = true ∧ malformed form s.inp.length = false ∧ (∃ b ∈ s.inp, isSymbol s.inv b = false) ∧
      decodeChecked form s = raise .unknownSymbol .out s) ∨
    (s.alphaValid = true ∧ malformed form s.inp.length = false ∧ (∀ b ∈ s.inp, isSymbol s.inv b = true) ∧
      decodeChecked form s = s.succeedOut (decodeMessage form s.inv s.xform.I s.inp)) := by
  cases hv : s.alphaValid
  · exact .inl ⟨rfl, by simp [decodeChecked, hv]⟩
  · cases hm : malformed form s.inp.length
    · cases hs : s.inp.all (isSymbol s.inv)
      · refine .inr (.inr (.inl ⟨rfl, rfl, by simpa using hs, ?_⟩))
        simp only [decodeChecked, hv, hm, hs, Bool.not_true, Bool.false_eq_true, if_false]
      · refine .inr (.inr (.inr ⟨rfl, rfl, by simpa using hs, ?_⟩))
        simp only [decodeChecked, hv, hm, hs, Bool.not_true, Bool.false_eq_true, if_false, if_true]
    · exact .inr (.inl ⟨rfl, rfl, by simp [decodeChecked, hv, hm]⟩)

theorem execDec_cases (s : State) :
    (s.inp = [] ∧ execDec s = .next (s.succeedOut [])) ∨
    (s.inp ≠ [] ∧ execDec s = .next (decodeChecked .general s)) := by
  by_cases hi : s.inp = []
  · exact .inl ⟨hi, by simp [execDec, hi]⟩
  · exact .inr ⟨hi, by simp [execDec, hi]⟩

theorem execDeca_cases (s : State) :
    (s.inp = [] ∧ execDeca s = .next (s.succeedOut [])) ∨
    (s.inp ≠ [] ∧ execDeca s = .next (decodeChecked .ascii s)) := by
  by_cases hi : s.inp = []
  · exact .inl ⟨hi, by simp [execDeca, hi]⟩
  · exact .inr ⟨hi, by simp [execDeca, hi]⟩

/-- Everything a step can do: wait for a command, raise `IllegalCommand`, or run the decoded command and retire it. -/
theorem step_cases {s t : State} (h : step s = .next t) :
    (s.pending = [] ∧ t = s) ∨
    ∃ q rest, s.pending = q :: rest ∧
      ((∃ e, decode q.word = .error e ∧
          t = retire (illegalCommand { s with pending := rest, inp := q.inp, xcand := q.xcand })) ∨
        ∃ i u, decode q.word = .ok i ∧ exec i { s with pending := rest, inp := q.inp, xcand := q.xcand } = .next u ∧
          t = retire u) := by
  rcases takeRequest_cases s with ⟨hp, e⟩ | ⟨q, rest, hp, e⟩
  · rw [step, e] at h
    exact .inl ⟨hp, (Host.Outcome.next.inj h).symm⟩
  · rw [step, e] at h
    refine .inr ⟨q, rest, hp, ?_⟩
    cases hd : decode q.word with
    | error err =>
      simp only [hd] at h
      exact .inl ⟨err, rfl, (Host.Outcome.next.inj h).symm⟩
    | ok i =>
      simp only [hd] at h
      obtain ⟨u, hu, ht⟩ := retireResult_next h
      exact .inr ⟨i, u, rfl, hu, ht⟩

end Sys2Proof.Machine
end

