-- ==== Sys2Proof/Laws/PerInstr.lean ====
section
/-! SUPPORT. Statements about every command as syntax, one lemma per constructor (LAWS.json names the families). -/

namespace Sys2Proof.Laws

/-- The family OpcodeField: the word of a command holds the opcode of R73 in its bits 23:16. -/
def OpcodeField.Statement (i : Instr) : Prop := opField (encode i) = i.opcode

theorem OpcodeField.setalpha : OpcodeField.Statement .setalpha := opField_encode _
theorem OpcodeField.shuffle : OpcodeField.Statement .shuffle := opField_encode _
theorem OpcodeField.valueof (a : Byte) : OpcodeField.Statement (.valueof a) := opField_encode _
theorem OpcodeField.symbolof (a : Byte) : OpcodeField.Statement (.symbolof a) := opField_encode _
theorem OpcodeField.setxform : OpcodeField.Statement .setxform := opField_encode _
theorem OpcodeField.xfwd (a b : Byte) : OpcodeField.Statement (.xfwd a b) := opField_encode _
theorem OpcodeField.xinv (a b : Byte) : OpcodeField.Statement (.xinv a b) := opField_encode _
theorem OpcodeField.setbluff (enabled : Bool) : OpcodeField.Statement (.setbluff enabled) := opField_encode _
theorem OpcodeField.setkey (a : Byte) : OpcodeField.Statement (.setkey a) := opField_encode _
theorem OpcodeField.nextkey : OpcodeField.Statement .nextkey := opField_encode _
theorem OpcodeField.enc : OpcodeField.Statement .enc := opField_encode _
theorem OpcodeField.dec : OpcodeField.Statement .dec := opField_encode _
theorem OpcodeField.enca : OpcodeField.Statement .enca := opField_encode _
theorem OpcodeField.deca : OpcodeField.Statement .deca := opField_encode _

end Sys2Proof.Laws
end

