-- ==== Sys2Proof/Tests/Slice0.lean ====
section
/-! SUPPORT. Tests of one command or one step each, with the expected values of spec/95_test_vectors.md (the vector is named
at each test) or of the rules' own examples, and for every statement with hypotheses a witness that meets them. -/

namespace Sys2Proof.Tests

open Sys2Proof Sys2Proof.Machine Sys2Proof.Claim

set_option Elab.async false

/-! ## The configuration CFG0 of spec/95_test_vectors.md -/

/-- The bytes `a`, `a + 1`, …, `n` of them. -/
def upTo (a n : Nat) : List Byte := (List.range n).map fun k => BitVec.ofNat 8 (a + k)

/-- The test alphabet `B64`. -/
def b64 : List Byte := upTo 0x41 26 ++ upTo 0x61 26 ++ upTo 0x30 10 ++ [0x2B, 0x2F]

/-- `FWD` of CFG0. -/
def b64Fwd : Vector Byte 64 := ⟨b64.toArray, by decide⟩

/-- `B64` backwards (vector A9). -/
def b64Back : Vector Byte 64 := ⟨b64.reverse.toArray, by decide⟩

/-- `n` entries that stand for no value. -/
def unmapped (n : Nat) : List Byte := List.replicate n 0xFF

/-- `INV` of CFG0, entry by entry. -/
def b64InvList : List Byte :=
  unmapped 43 ++ [62] ++ unmapped 3 ++ [63] ++ upTo 52 10 ++ unmapped 7 ++ upTo 0 26 ++ unmapped 6 ++ upTo 26 26 ++
    unmapped 133

def b64Inv : Vector Byte 256 := ⟨b64InvList.toArray, by decide +kernel⟩

/-- Reset with no default alphabet, the probe key `0x41` and no bound on `IN`. -/
def blank : State := State.resetOf ⟨none, 0x41, none⟩

/-- CFG0. -/
def cfg0 : State := { blank with fwd := b64Fwd, inv := b64Inv, alphaValid := true, fixedKey := 0x41 }

/-- A state with another `IN`. -/
def given (s : State) (l : List Byte) : State := { s with inp := l }

/-- CFG0 in bluff mode with one supplied answer. -/
def bluffing (n : Nat) : State := { cfg0 with bluff := true, rnd := ⟨[n], 0⟩ }

/-- CFG0 with one command at the port. -/
def asked (i : Instr) (l : List Byte) : State := { cfg0 with pending := [⟨encode i, l, Xform.default⟩] }

/-- CFG0 of a block whose `MAX_LEN` is 4. -/
def narrow (l : List Byte) : State := { cfg0 with params := ⟨none, 0x41, some 4⟩, inp := l }

/-- The transforms `ADD7` and `ADD8` of vectors X4 and X5 at the key `0x41`. -/
def add7 : Xform :=
  ⟨tableOfAtKey (fun b k => BitVec.ofNat 8 ((b.toNat + k.toNat) % 128)) 0x41,
    tableOfAtKey (fun b k => BitVec.ofNat 8 ((b.toNat + 256 - k.toNat) % 128)) 0x41⟩

def add8 : Xform := ⟨tableOfAtKey (fun b k => b + k) 0x41, tableOfAtKey (fun b k => b - k) 0x41⟩

/-- The state a command gives. -/
def after (i : Instr) (s : State) : Option State :=
  match exec i s with
  | .next t => some t
  | .fault _ => none
  | .refused _ => none

/-- `STATUS` and `OUT` after a command. -/
def outAfter (i : Instr) (s : State) : Option (Nat × List Byte) := (after i s).map fun t => (t.status.toNat, t.out)

/-- `STATUS` and `RES` after a command. -/
def resAfter (i : Instr) (s : State) : Option (Nat × Byte) := (after i s).map fun t => (t.status.toNat, t.res)

/-- `STATUS` after a command. -/
def statusAfter (i : Instr) (s : State) : Option Nat := (after i s).map fun t => t.status.toNat

theorem isNext_of_after {i : Instr} {s t : State} (h : after i s = some t) : exec i s = .next t := by
  unfold after at h
  split at h
  · cases h
    assumption
  · cases h
  · cases h

/-! ## Well-formedness and words (R71 to R78; vectors E1 to E11) -/

theorem test_illFormed_symbolof : (Instr.symbolof 0x40).wellFormed = false := by decide

theorem test_decode_alphabet : decode 0b000000010000000000000000 = .ok .setalpha ∧
    decode 0b000000100000000000000000 = .ok .shuffle ∧ decode 0b000000110110100000000000 = .ok (.valueof 0x68) ∧
    decode 0b000001000010000100000000 = .ok (.symbolof 33) := by decide

theorem test_decode_transform : decode 0b000100000000000000000000 = .ok .setxform ∧
    decode 0b000100010111111101000001 = .ok (.xfwd 0x7F 0x41) ∧
    decode 0b000100100011111001000001 = .ok (.xinv 0x3E 0x41) := by decide

theorem test_decode_key : decode 0b001000000000000100000000 = .ok (.setbluff true) ∧
    decode 0b001000001111111000000000 = .ok (.setbluff false) ∧
    decode 0b001000010100000100000000 = .ok (.setkey 0x41) ∧ decode 0b001000100000000000000000 = .ok .nextkey := by decide

theorem test_decode_codecs : decode 0b001100000000000000000000 = .ok .enc ∧ decode 0b001100010000000000000000 = .ok .dec ∧
    decode 0b001100100000000000000000 = .ok .enca ∧ decode 0b001100110000000000000000 = .ok .deca := by decide

theorem test_decode_illegal : decodeTableWord 24 0x000000 = none ∧ decodeTableWord 24 0x050000 = none ∧
    decodeTableWord 24 0x130000 = none ∧ decodeTableWord 24 0x230000 = none ∧ decodeTableWord 24 0x340000 = none ∧
    decodeTableWord 24 0xFF0000 = none ∧ decodeTableWord 24 0x044000 = none := by decide

theorem test_assemble : assemble "SETKEY" [.quoted 'A'] = some 0x214100 ∧
    assemble "XFWD" [.number 0x7F, .number 0x41] = some 0x117F41 ∧ assemble "ENC" [] = some 0x300000 ∧
    assemble "NOP" [] = none := by decide

theorem test_suName : expandSuName .install = .setalpha ∧ expandSuName (.setBluff 0xFE) = .setbluff false ∧
    expandSuName .encodeAscii = .enca := by decide

/-! ## Alphabet commands -/

/-- Vector A1. -/
theorem test_setalpha : ((after .setalpha (given blank b64)).map fun t =>
    (t.fwd.toList, t.alphaValid, readInv t.inv 0x2F, readInv t.inv 0x3D)) = some (b64, true, 63, 0xFF) := by decide +kernel

/-- Vectors A5 and A6. -/
theorem test_setalpha_repeated : statusAfter .setalpha (given cfg0 (b64.dropLast ++ [0x41])) = some 1 ∧
    statusAfter .setalpha (given cfg0 b64.dropLast) = some 1 := by decide +kernel

/-- Vector A6: 65 symbols are one too many, whatever `MAX_LEN` is (R101, D24). -/
theorem test_setalpha_longer : step { narrow [] with pending := [⟨0x010000, b64 ++ [0x2D], Xform.default⟩] } =
    .next { narrow [] with status := 1 } := by rfl

/-- Vector A8. -/
theorem test_shuffle : ((after .shuffle { cfg0 with rnd := ⟨List.replicate 63 0, 0⟩ }).map fun t =>
    (t.fwd.toList, t.rnd)) = some (b64.tail ++ [0x41], ⟨[], 63⟩) := by decide +kernel

/-- Vector A10: no draw. -/
theorem test_shuffle_noAlphabet : ((after .shuffle blank).map fun t => (t.status, t.rnd.drawn)) = some (1, 0) := by
  decide +kernel

/-- Vectors A2 and A3. -/
theorem test_valueof : resAfter (.valueof 0x68) cfg0 = some (0, 33) ∧ resAfter (.valueof 0x3D) cfg0 = some (2, 0) := by
  decide +kernel

/-- Vector A4. -/
theorem test_symbolof : resAfter (.symbolof 33) cfg0 = some (0, 0x68) ∧ resAfter (.symbolof 63) cfg0 = some (0, 0x2F) := by
  decide +kernel

/-! ## ByteTransform commands -/

/-- Vector X5: the range is not checked. -/
theorem test_setxform : ((after .setxform { blank with xcand := add8 }).map fun t => (t.status.toNat, t.xform.T 0x7F 0x41)) =
    some (0, 0xC0) := by decide +kernel

/-- Vector X3, at the key `0x41`. -/
theorem test_setxform_unmatched : statusAfter .setxform
    { blank with xcand := ⟨add8.fwdTable, add8.fwdTable⟩ } = some 4 := by decide +kernel

/-- Vector X1. -/
theorem test_xfwd : resAfter (.xfwd 0x7F 0x41) blank = some (0, 0x3E) ∧ resAfter (.xfwd 0xFF 0xFF) blank = some (0, 0) := by
  decide +kernel

/-- Vectors X2 and X4. -/
theorem test_xinv : resAfter (.xinv 0x3E 0x41) blank = some (0, 0x7F) ∧
    resAfter (.xinv 0x40 0x41) { blank with xform := add7 } = some (0, 0x7F) := by decide +kernel

/-! ## KeySelector commands -/

/-- Vector K10. -/
theorem test_setbluff : ((after (.setbluff false) (bluffing 1)).map fun t => (t.bluff, t.fixedKey)) = some (false, 0x41) := by
  decide +kernel

/-- Vectors K2 and K3. -/
theorem test_setkey : ((after (.setkey 0x7A) cfg0).map fun t => t.fixedKey) = some 0x7A ∧
    ((after (.setkey 0x3D) cfg0).map fun t => (t.status, t.fixedKey)) = some (3, 0x41) := by decide +kernel

/-- Vectors K1 and K4. -/
theorem test_nextkey : resAfter .nextkey cfg0 = some (0, 0x41) ∧ resAfter .nextkey (bluffing 37) = some (0, 0x6C) := by
  decide +kernel

/-! ## Codec commands -/

/-- The scenario of SU §8 (vector S1): "AhB/8DB". -/
theorem test_enc : outAfter .enc (given cfg0 [0x00, 0x7F, 0x80, 0xFF]) =
    some (0, [0x41, 0x68, 0x42, 0x2F, 0x38, 0x44, 0x42]) := by decide +kernel

/-- Vector U1: a transform that leaves 0..127. -/
theorem test_enc_escape : outAfter .enc (given { cfg0 with xform := add8 } [0x00, 0x7F]) = some (8, []) := by decide +kernel

/-- Vector H7: "AhB/8DBB". -/
theorem test_dec : outAfter .dec (given cfg0 [0x41, 0x68, 0x42, 0x2F, 0x38, 0x44, 0x42, 0x42]) =
    some (0, [0x00, 0x7F, 0x80, 0xFF, 0x41]) := by decide +kernel

/-- Vectors H12 and H9: the shape is checked before the symbols. -/
theorem test_dec_errors : outAfter .dec (given cfg0 [0x41, 0x3D]) = some (5, []) ∧
    outAfter .dec (given cfg0 [0x41, 0x68, 0x2A, 0x42]) = some (2, []) := by decide +kernel

/-- Vector I8: "Ap+ACC6FBD", two blocks. -/
theorem test_enca : outAfter .enca (given cfg0 [0x3F, 0x40, 0x41, 0x00, 0x7F, 0x01, 0x02]) =
    some (0, [0x41, 0x70, 0x2B, 0x41, 0x43, 0x43, 0x36, 0x46, 0x42, 0x44]) := by decide +kernel

/-- Vector I15: the range outranks a stale key. -/
theorem test_enca_range : outAfter .enca (given { cfg0 with fixedKey := 0x3D } [0x80]) = some (6, []) := by decide +kernel

/-- Vector J7: "ABCDEFGHIJ". -/
theorem test_deca : outAfter .deca (given cfg0 (upTo 0x41 10)) = some (0, [0x03, 0x43, 0x47, 0x47, 0x43, 0x43, 0x48]) := by
  decide +kernel

/-- Vector J6. -/
theorem test_deca_shape : outAfter .deca (given cfg0 (upTo 0x41 9)) = some (5, []) := by decide +kernel

/-! ## Steps -/

/-- Program P3, command 6: an illegal word changes only `STATUS`. -/
theorem test_step_illegal : step (cfg0.withFetchWord 24 0x000000) = .next { cfg0 with status := 7 } := by rfl

/-- Vector K2. -/
theorem test_step_setkey : step (cfg0.withFetchWord 24 0x217A00) = .next { cfg0 with fixedKey := 0x7A } := by rfl

/-! ## Witnesses: for every statement with hypotheses, a state and operands that meet them -/

theorem b64_round : ∀ b : Byte, readInv b64Inv b = 0xFF ∨ readFwd b64Fwd ((readInv b64Inv b).setWidth 6) = b := by
  decide +kernel

theorem alphabet_of_b64 {s : State} (hf : s.fwd = b64Fwd) (hi : s.inv = b64Inv) : AlphabetInv s where
  distinct _ := by rw [hf]; decide +kernel
  inverse _ := by rw [hf, hi]; decide +kernel
  foreign _ b hb := by
    rw [hf] at hb
    rw [hi]
    exact (b64_round b).resolve_right fun h => hb (h ▸ readFwd_mem _ _)

theorem alphabet_cfg0 : AlphabetInv cfg0 := alphabet_of_b64 rfl rfl

theorem asked_inv (i : Instr) (l : List Byte) : Inv (asked i l) where
  alphabet := alphabet_of_b64 rfl rfl
  xform := default_undoes _
  canonical := ⟨rfl, rfl, by intro q hq; cases List.mem_singleton.1 hq; rfl⟩
  status := (by decide : cfg0.status.toNat ≤ 8)
  requests := by intro q _ m hm; cases hm
  out := by intro m hm; cases hm
  params := (by decide : cfg0.params.legal = true)

/-- The transform of any two functions (R28). -/
def transformOf (f g : Byte → Byte → Byte) : Xform := ⟨tableOf f, tableOf g⟩

theorem transformOf_apply (f g : Byte → Byte → Byte) (b k : Byte) :
    (transformOf f g).T b k = f b k ∧ (transformOf f g).I b k = g b k := by
  rw [Xform.T, Xform.I, transformOf]
  exact ⟨applyTable_tableOf f b k, applyTable_tableOf g b k⟩

theorem xor_below {b k : Byte} (hb : b.toNat < 128) (hk : k.toNat < 128) : (b ^^^ k).toNat < 128 := by
  rw [BitVec.toNat_xor]
  exact Nat.xor_lt_two_pow (n := 7) hb hk

theorem b64_below : ∀ b ∈ b64Fwd.toList, b.toNat < 128 := by
  have h : ∀ v : Value, (readFwd b64Fwd v).toNat < 128 := by decide +kernel
  intro b hb
  obtain ⟨v, rfl⟩ := mem_toList_iff_readFwd.1 hb
  exact h v

theorem witness_DecodeReturnsEncodedCommand : (Instr.symbolof 0x3F).wellFormed = true := by decide

theorem witness_DecodeIgnoresUnusedFields : (0x33 : Byte) ∈ ([0x01, 0x02, 0x10, 0x22, 0x30, 0x31, 0x32, 0x33] : List Byte) ∧
    (0x21 : Byte) ∈ ([0x03, 0x04, 0x21] : List Byte) ∧ (0xFE : Byte).getLsbD 0 = (0x00 : Byte).getLsbD 0 ∧
    decode (word 0x33 0xFF 0x00) = .ok .deca := by decide

theorem witness_IllegalWordsAreExactlyThose : IllegalWord 0x044000 ∧ IllegalWord 0x050000 ∧ ¬ IllegalWord 0x043F55 := by
  unfold IllegalWord
  decide

theorem witness_AssembledCommandDecodes : (Instr.symbolof 0x3F).wellFormed = true := by decide

theorem witness_StepRunsDecodedCommand : (asked (.setkey 0x7A) []).pending = [⟨0x217A00, [], Xform.default⟩] ∧
    decode 0x217A00 = .ok (.setkey 0x7A) := by decide

theorem witness_StepTakesOneRequest : ∃ t, step (asked .nextkey []) = .next t := ⟨_, rfl⟩

theorem witness_IdlePortChangesNothing : cfg0.pending = [] := rfl

theorem witness_IllegalCommandChangesOnlyStatus :
    (cfg0.withFetchWord 24 0x044000).pending = [⟨0x044000, [], Xform.default⟩] ∧ IllegalWord 0x044000 := by
  unfold IllegalWord
  decide

theorem witness_ResetStateFollowsTable : (⟨none, 0x41, none⟩ : Params).defaultAlphabet = none ∧
    (⟨some b64Fwd, 0x41, none⟩ : Params).defaultAlphabet = some b64Fwd ∧ b64Fwd.toList.Nodup := by decide +kernel

theorem witness_ResetMeetsInvariant : (⟨some b64Fwd, 0x01, some 0⟩ : Params).legal = true ∧
    (⟨none, 0xFF, none⟩ : Params).legal = true := by decide +kernel

theorem witness_StepKeepsAlphabetInvariant : AlphabetInv (asked .shuffle []) ∧ ∃ t, step (asked .shuffle []) = .next t :=
  ⟨alphabet_of_b64 rfl rfl, _, rfl⟩

theorem witness_StepKeepsTransformAdmitted : XformAdmitted (asked .setxform []) ∧ ∃ t, step (asked .setxform []) = .next t :=
  ⟨default_undoes _, _, rfl⟩

theorem witness_StepKeepsOutWithinCapacity : OutFits { narrow [] with pending := [⟨0x300000, [0, 1, 2, 3], Xform.default⟩] } ∧
    RequestsFit { narrow [] with pending := [⟨0x300000, [0, 1, 2, 3], Xform.default⟩] } ∧
    ∃ t, step { narrow [] with pending := [⟨0x300000, [0, 1, 2, 3], Xform.default⟩] } = .next t :=
  ⟨by intro m hm; cases hm; decide, by intro q hq m hm; cases hm; cases List.mem_singleton.1 hq; decide, _, rfl⟩

theorem witness_StepKeepsInvariant : Inv (asked .enc [0x80]) ∧ ∃ t, step (asked .enc [0x80]) = .next t :=
  ⟨asked_inv _ _, _, rfl⟩

theorem witness_StatusIsAlwaysOneOfTheCodes : (asked .nextkey []).pending ≠ [] ∧ ∃ t, step (asked .nextkey []) = .next t :=
  ⟨by simp [asked], _, rfl⟩

theorem witness_AlphaValidIsNeverCleared : (asked .setalpha []).alphaValid = true ∧
    ∃ t, step (asked .setalpha []) = .next t := ⟨rfl, _, rfl⟩

theorem witness_CommandsWriteOnlyTheirColumns : (∃ t, exec .setalpha (given cfg0 b64) = .next t) ∧
    (∃ t, exec .shuffle cfg0 = .next t) ∧ ∃ t, exec .deca (given cfg0 (upTo 0x41 3)) = .next t :=
  ⟨⟨_, rfl⟩, ⟨_, rfl⟩, _, rfl⟩

/-- An error of a command with a result in `RES`, and the error after a draw. -/
theorem witness_ErrorsLeaveConfigurationIntact :
    (∃ t, exec (.valueof 0x3D) cfg0 = .next t ∧ t.status ≠ 0) ∧
    ∃ t, exec .enc (given { bluffing 0 with xform := add8 } [0x7F]) = .next t ∧ t.status ≠ 0 :=
  ⟨⟨_, rfl, by decide +kernel⟩, _, rfl, by decide +kernel⟩

theorem witness_TablesUnreadWithoutAlphabet : blank.alphaValid = false ∧ ∃ t, exec (.valueof 0x41) blank = .next t :=
  ⟨rfl, _, rfl⟩

theorem witness_ReadOnlyCommandsDoNotInterfere : ReadOnly cfg0 .enc ∧ ReadOnly cfg0 (.valueof 0x41) ∧
    (∃ t, exec (.valueof 0x41) cfg0 = .next t) ∧ ∃ u, exec .enc (given cfg0 [0x80]) = .next u :=
  ⟨rfl, trivial, ⟨_, rfl⟩, _, rfl⟩

theorem witness_InvalidAlphabetCauses : (∃ t, exec .setalpha (given cfg0 b64.dropLast) = .next t ∧ t.status = 1) ∧
    ∃ t, exec (.symbolof 0x3F) blank = .next t ∧ t.status = 1 :=
  ⟨⟨_, rfl, by decide +kernel⟩, _, rfl, by decide +kernel⟩

/-- Each of the three errors, at the shortest text or the lowest byte that causes it. -/
theorem witness_DataErrorCauses : cfg0.alphaValid = true ∧
    (∃ t, exec .dec (given cfg0 [0x41, 0x41, 0x2A]) = .next t ∧ t.status = 2) ∧
    (∃ t, exec .dec (given cfg0 [0x41, 0x41]) = .next t ∧ t.status = 5) ∧
    ∃ t, exec .enca (given cfg0 [0x80]) = .next t ∧ t.status = 6 :=
  ⟨rfl, ⟨_, rfl, by decide +kernel⟩, ⟨_, rfl, by decide +kernel⟩, _, rfl, by decide +kernel⟩

theorem witness_ConfigurationErrorCauses : (∃ t, exec .nextkey { cfg0 with fixedKey := 0x3D } = .next t ∧ t.status = 3) ∧
    ∃ t, exec .setxform { cfg0 with xcand := ⟨add8.fwdTable, add8.fwdTable⟩ } = .next t ∧ t.status = 4 :=
  ⟨⟨_, rfl, by decide +kernel⟩, _, rfl, by decide +kernel⟩

/-- The lengths 64, 63 and 65, and 64 symbols with one twice. -/
theorem witness_SetalphaFollowsRule : b64.length = 64 ∧ b64.Nodup ∧ b64.dropLast.length = 63 ∧
    (b64 ++ [0x2A]).length = 65 ∧ ¬ (b64.dropLast ++ [0x41]).Nodup := by decide +kernel

theorem witness_OldSymbolsAreUnmapped : (∃ t, exec .setalpha (given cfg0 (upTo 0x80 64)) = .next t ∧ t.status = 0) ∧
    (0x41 : Byte) ∉ upTo 0x80 64 := ⟨⟨_, rfl, by decide +kernel⟩, by decide +kernel⟩

/-- The least and the greatest answers. -/
theorem witness_ShuffleAppliesDrawnSwaps : blank.alphaValid = false ∧ cfg0.alphaValid = true ∧ cfg0.fwd.toList.Nodup ∧
    (List.replicate 63 0).length = 63 ∧ (∀ m, m < 63 → (List.replicate 63 0).getD m 0 < 64 - m) ∧
    ((List.range 63).map (63 - ·)).length = 63 ∧ ∀ m, m < 63 → ((List.range 63).map (63 - ·)).getD m 0 < 64 - m :=
  ⟨rfl, rfl, by decide +kernel, by decide +kernel, by decide +kernel, by decide +kernel, by decide +kernel⟩

theorem witness_ShufflePermutesSymbols : cfg0.alphaValid = true := rfl

theorem witness_ShuffleReachesEveryOrder : cfg0.alphaValid = true ∧ b64Back.toList.Perm cfg0.fwd.toList :=
  ⟨rfl, List.reverse_perm b64⟩

theorem witness_ValueofFollowsRule : blank.alphaValid = false ∧ cfg0.alphaValid = true ∧ readInv cfg0.inv 0x3D = 0xFF ∧
    readInv cfg0.inv 0x2F ≠ 0xFF := by decide +kernel

theorem witness_SymbolofFollowsRule : (0x3F : Byte).toNat < 64 ∧ 64 ≤ (0x40 : Byte).toNat ∧ blank.alphaValid = false ∧
    cfg0.alphaValid = true := by decide +kernel

theorem witness_ValueofAndSymbolofAreInverse : AlphabetInv cfg0 ∧ cfg0.alphaValid = true := ⟨alphabet_cfg0, rfl⟩

theorem witness_FixedKeyAcrossAlphabetChanges : AlphabetInv (given cfg0 (upTo 0x80 64)) ∧
    (given cfg0 (upTo 0x80 64)).alphaValid = true ∧ (∃ t, exec .shuffle (given cfg0 (upTo 0x80 64)) = .next t) ∧
    ∃ t, exec .setalpha (given cfg0 (upTo 0x80 64)) = .next t ∧ t.status = 0 :=
  ⟨alphabet_of_b64 rfl rfl, rfl, ⟨_, rfl⟩, _, rfl, by decide +kernel⟩

/-- The default, and a pair that fails at the byte 0. -/
theorem witness_SetxformFollowsRule :
    (∀ b : Byte, b.toNat < 128 → Xform.default.I (Xform.default.T b 0x41) 0x41 = b) ∧
    ∃ b : Byte, b.toNat < 128 ∧ (⟨[], add8.fwdTable⟩ : Xform).I ((⟨[], add8.fwdTable⟩ : Xform).T b 0x41) 0x41 ≠ b :=
  ⟨default_undoes _, 0x00, by decide, by decide +kernel⟩

theorem witness_UnmatchedAdditionIsRejected : ∃ s : State, s.params.probeKey.toNat % 128 ≠ 0 ∧
    ∀ b k : Byte, s.xcand.T b k = b + k ∧ s.xcand.I b k = b + k :=
  ⟨{ blank with xcand := transformOf (fun b k => b + k) (fun b k => b + k) }, (by decide : blank.params.probeKey.toNat % 128 ≠ 0),
    transformOf_apply _ _⟩

/-- `ADD7` of vector X4, at every key. -/
def add7Everywhere : Xform :=
  transformOf (fun b k => BitVec.ofNat 8 ((b.toNat + k.toNat) % 128))
    (fun b k => BitVec.ofNat 8 ((b.toNat + 256 - k.toNat) % 128))

theorem witness_MatchedAdditionIsAccepted : ∃ s : State, ∀ b k : Byte,
    s.xcand.T b k = BitVec.ofNat 8 ((b.toNat + k.toNat) % 128) ∧
    s.xcand.I b k = BitVec.ofNat 8 ((b.toNat + 256 - k.toNat) % 128) :=
  ⟨{ blank with xcand := add7Everywhere }, transformOf_apply _ _⟩

theorem witness_DefaultTransformUndoesItself : blank.xform = Xform.default ∧
    (∃ t, exec (.xfwd 0x7F 0x7F) blank = .next t) ∧ (0x7F : Byte).toNat < 128 := ⟨rfl, ⟨_, rfl⟩, by decide⟩

theorem witness_SetkeyFollowsRule : blank.alphaValid = false ∧ cfg0.alphaValid = true ∧ readInv cfg0.inv 0x3D = 0xFF ∧
    readInv cfg0.inv 0x41 ≠ 0xFF := by decide +kernel

theorem witness_NextkeyFollowsRule : blank.alphaValid = false ∧ cfg0.alphaValid = true ∧ cfg0.bluff = false ∧
    readInv cfg0.inv 0x3D = 0xFF ∧ readInv cfg0.inv cfg0.fixedKey ≠ 0xFF ∧ (bluffing 63).bluff = true := by
  decide +kernel

theorem witness_ChosenKeyIsASymbol : AlphabetInv (bluffing 63) ∧ ∃ t, exec .nextkey (bluffing 63) = .next t ∧ t.status = 0 :=
  ⟨alphabet_of_b64 rfl rfl, _, rfl, by decide +kernel⟩

/-- The states of the five clauses: no input, no alphabet, a stale key, an escape at the first byte, none. -/
theorem witness_EncFollowsRule : (given cfg0 []).inp = [] ∧
    (given blank [0x80]).alphaValid = false ∧
    (readInv cfg0.inv 0x3D = 0xFF ∧ { cfg0 with fixedKey := 0x3D }.bluff = false) ∧
    (generalValue add8.T 0x41 [0x80] 0).getLsbD 7 = true ∧
    (∀ p, p < 4 → (generalValue cfg0.xform.T 0x41 [0x80, 0x7F, 0x00, 0xFF] p).getLsbD 7 = false) ∧
    readInv cfg0.inv cfg0.fixedKey ≠ 0xFF :=
  ⟨rfl, rfl, by decide +kernel, by decide +kernel, by decide +kernel, by decide +kernel⟩

/-- The states of the six clauses: as for `ENC`, and a byte of 128. -/
theorem witness_EncaFollowsRule : (given cfg0 []).inp = [] ∧
    (given blank [0x7F]).alphaValid = false ∧ (∃ b ∈ (given cfg0 [0x80]).inp, 128 ≤ b.toNat) ∧
    (∀ b ∈ (given cfg0 [0x7F, 0x00]).inp, b.toNat < 128) ∧
    (readInv cfg0.inv 0x3D = 0xFF ∧ { cfg0 with fixedKey := 0x3D }.bluff = false) ∧
    (asciiValue add8.T 0x41 [0x7F] 0).getLsbD 7 = true ∧
    (∀ p, p < 2 → (asciiValue cfg0.xform.T 0x41 [0x7F, 0x00] p).getLsbD 7 = false) ∧
    readInv cfg0.inv cfg0.fixedKey ≠ 0xFF :=
  ⟨rfl, rfl, by decide, by decide, by decide +kernel, by decide +kernel,
    by decide +kernel, by decide +kernel⟩

/-- Texts of each clause: empty, no alphabet, two symbols, a foreign byte, one symbol and a whole block. -/
theorem witness_DecFollowsRule : (given cfg0 []).inp = [] ∧
    (given blank [0x41]).alphaValid = false ∧ ((given cfg0 [0x41, 0x41]).inp.length - 1) % 4 = 1 ∧
    ((given cfg0 [0x41, 0x41, 0x2A]).inp.length - 1) % 4 ≠ 1 ∧
    (∃ b ∈ (given cfg0 [0x41, 0x41, 0x2A]).inp, readInv cfg0.inv b = 0xFF) ∧
    ((given cfg0 [0x41]).inp.length - 1) % 4 ≠ 1 ∧ (∀ b ∈ (given cfg0 (upTo 0x41 5)).inp, readInv cfg0.inv b ≠ 0xFF) :=
  ⟨rfl, rfl, by decide, by decide, by decide +kernel, by decide, by decide +kernel⟩

/-- Texts of each clause, as for `DEC`. -/
theorem witness_DecaFollowsRule : (given cfg0 []).inp = [] ∧
    (given blank [0x41]).alphaValid = false ∧ ((given cfg0 (upTo 0x41 9)).inp.length - 1) % 7 = 1 ∧
    ((given cfg0 [0x41, 0x41, 0x2A]).inp.length - 1) % 7 ≠ 1 ∧
    (∃ b ∈ (given cfg0 [0x41, 0x41, 0x2A]).inp, readInv cfg0.inv b = 0xFF) ∧
    ((given cfg0 [0x41]).inp.length - 1) % 7 ≠ 1 ∧ (∀ b ∈ (given cfg0 (upTo 0x41 8)).inp, readInv cfg0.inv b ≠ 0xFF) :=
  ⟨rfl, rfl, by decide, by decide, by decide +kernel, by decide, by decide +kernel⟩

/-- A byte of 128, and the empty input with no alphabet. -/
theorem witness_GeneralFormRoundTrips :
    (∃ t u : State, exec .enc (given cfg0 [0x80]) = .next t ∧ t.status = 0 ∧ u.inp = t.out ∧
      AlphabetInv (given cfg0 [0x80]) ∧ u.fwd = t.fwd ∧ u.inv = t.inv ∧ u.alphaValid = t.alphaValid ∧
      u.xform = t.xform ∧ UndoesOnDomain (given cfg0 [0x80]).xform (t.out.getD 0 0)) ∧
    ∃ t, exec .enc blank = .next t ∧ t.status = 0 :=
  ⟨⟨_, given _ _, rfl, by decide +kernel, rfl, alphabet_of_b64 rfl rfl, rfl, rfl, rfl, rfl,
    default_undoes _⟩, _, rfl, by decide +kernel⟩

/-- A byte of 127, and the empty input with no alphabet. -/
theorem witness_AsciiFormRoundTrips :
    (∃ t u : State, exec .enca (given cfg0 [0x7F]) = .next t ∧ t.status = 0 ∧ u.inp = t.out ∧
      AlphabetInv (given cfg0 [0x7F]) ∧ u.fwd = t.fwd ∧ u.inv = t.inv ∧ u.alphaValid = t.alphaValid ∧
      u.xform = t.xform ∧ UndoesOnDomain (given cfg0 [0x7F]).xform (t.out.getD 0 0)) ∧
    ∃ t, exec .enca blank = .next t ∧ t.status = 0 :=
  ⟨⟨_, given _ _, rfl, by decide +kernel, rfl, alphabet_of_b64 rfl rfl, rfl, rfl, rfl, rfl,
    default_undoes _⟩, _, rfl, by decide +kernel⟩

theorem witness_DefaultTransformRoundTrips : AlphabetInv (given cfg0 [0x7F]) ∧
    cfg0.alphaValid = true ∧ cfg0.xform = Xform.default ∧ (∀ b ∈ cfg0.fwd.toList, b.toNat < 128) ∧
    cfg0.fixedKey ∈ cfg0.fwd.toList ∧ ∀ b ∈ (given cfg0 [0x7F]).inp, b.toNat < 128 :=
  ⟨alphabet_of_b64 rfl rfl, rfl, rfl, b64_below, by decide +kernel, by decide⟩

theorem witness_BluffDrawSetsFirstSymbol : AlphabetInv (given (bluffing 63) [0xFF]) ∧ (bluffing 63).alphaValid = true ∧ (bluffing 63).bluff = true ∧
    (given (bluffing 63) [0xFF]).inp ≠ [] ∧ (bluffing 63).rnd.answers = (63 : Value).toNat :: [] ∧
    UndoesOnDomain (bluffing 63).xform (readFwd (bluffing 63).fwd 63) ∧
    ∀ b : Byte, b.toNat < 128 → ((bluffing 63).xform.T b (readFwd (bluffing 63).fwd 63)).toNat < 128 :=
  ⟨alphabet_of_b64 rfl rfl, rfl, rfl, by simp [given], rfl, default_undoes _, fun b hb => by
    rw [show (bluffing 63).xform = Xform.default from rfl, default_T]
    exact xor_below hb (b64_below _ (readFwd_mem _ _))⟩

theorem witness_EncodedBytesAreSymbols : AlphabetInv (given cfg0 [0x80]) ∧
    ∃ t, exec .enc (given cfg0 [0x80]) = .next t ∧ t.out ≠ [] := ⟨alphabet_of_b64 rfl rfl, _, rfl, by decide +kernel⟩

theorem witness_NoEscapeWhileTransformStaysBelow128 : AlphabetInv (given cfg0 [0xFF]) ∧
    (∀ b k : Byte, b.toNat < 128 → k ∈ cfg0.fwd.toList → (cfg0.xform.T b k).toNat < 128) ∧
    ∃ t, exec .enc (given cfg0 [0xFF]) = .next t :=
  ⟨alphabet_of_b64 rfl rfl, fun b k hb hk => by
    rw [show cfg0.xform = Xform.default from rfl, default_T]
    exact xor_below hb (b64_below k hk), _, rfl⟩

/-- Another transform that differs from the default at the bytes from 128 on. -/
theorem witness_CodecsUseTransformOn0To127 : AlphabetInv (given cfg0 [0x7F]) ∧ (∃ t, exec .enca (given cfg0 [0x7F]) = .next t) ∧
    ∃ x : Xform, (∀ b k : Byte, b.toNat < 128 → x.T b k = cfg0.xform.T b k ∧ x.I b k = cfg0.xform.I b k) ∧
      x.T 0x80 0x41 ≠ cfg0.xform.T 0x80 0x41 := by
  refine ⟨alphabet_of_b64 rfl rfl, ⟨_, rfl⟩,
    transformOf (fun b k => if b.toNat < 128 then b ^^^ k else 0x00) fun b k => b ^^^ k, ?_, ?_⟩
  · intro b k hb
    rw [(transformOf_apply _ _ b k).1, (transformOf_apply _ _ b k).2, if_pos hb, show cfg0.xform = Xform.default from rfl,
      default_T, default_I]
    exact ⟨rfl, rfl⟩
  · rw [(transformOf_apply _ _ 0x80 0x41).1, show cfg0.xform = Xform.default from rfl, default_T]
    decide

/-- "ABB" and "AFB" (vector H13), and two ASCII texts whose last block has five slots: marks 0 and 32. -/
theorem witness_DecodersIgnoreAbsentSlots :
    (readInv cfg0.inv 0x42 ≠ 0xFF ∧ readInv cfg0.inv 0x46 ≠ 0xFF ∧ 2 = (([0x41, 0x42, 0x42] : List Byte).length - 1) % 4 ∧
      (∀ k, k < 2 * (2 - 1) → (readInv cfg0.inv 0x46).getLsbD k = (readInv cfg0.inv 0x42).getLsbD k) ∧
      ∃ t, exec .dec (given cfg0 [0x41, 0x42, 0x42]) = .next t) ∧
    (readInv cfg0.inv 0x41 ≠ 0xFF ∧ readInv cfg0.inv 0x67 ≠ 0xFF ∧ 6 = (upTo 0x41 7).length - 1 ∧
      (∀ k, k < 6 - 1 → (readInv cfg0.inv 0x67).getLsbD k = (readInv cfg0.inv 0x41).getLsbD k) ∧
      ∃ t, exec .deca (given cfg0 (0x41 :: upTo 0x41 6)) = .next t) :=
  ⟨⟨by decide +kernel, by decide +kernel, by decide, by decide +kernel, _, rfl⟩,
    ⟨by decide +kernel, by decide +kernel, by decide, by decide +kernel, _, rfl⟩⟩

theorem witness_DecodersIgnoreKeySelector : ∃ t, exec .dec (given cfg0 (upTo 0x41 3)) = .next t := ⟨_, rfl⟩

theorem witness_OneByteTextsAgree : (given cfg0 [0x7F]).inp = [0x7F] ∧ (0x7F : Byte).toNat < 128 := ⟨rfl, by decide⟩

theorem witness_ComplementSharesPayload : (given cfg0 [0x7F]).inp = [0x7F] ∧ AlphabetInv (given cfg0 [0x7F]) ∧
    cfg0.bluff = false ∧ (∃ t, exec .enc (given cfg0 [0x7F]) = .next t ∧ t.status = 0) ∧
    ∃ u, exec .enc (given cfg0 [~~~0x7F]) = .next u :=
  ⟨rfl, alphabet_of_b64 rfl rfl, rfl, ⟨_, rfl, by decide +kernel⟩, _, rfl⟩

end Sys2Proof.Tests
end

section
/-! SUPPORT. `MAX_LEN` changes no result (R7, R34; of the codecs log 9): every shared operation and every command commutes
with setting it, and every command completes. -/

namespace Sys2Proof.Machine

/-- Every command ends in a next state (R245). -/
theorem exec_completes (i : Instr) (s : State) : ∃ t, exec i s = .next t := by
  cases i <;> exact ⟨_, rfl⟩

/-! ## Setting `MAX_LEN` -/

/-- The state with another `MAX_LEN` (R7). -/
def State.withMaxLen (bound : Option Nat) (s : State) : State :=
  { s with params := { s.params with maxLen := bound } }

section

variable (bound : Option Nat) (s : State)

@[simp] theorem withMaxLen_probeKey : (s.withMaxLen bound).params.probeKey = s.params.probeKey := rfl
@[simp] theorem withMaxLen_fwd : (s.withMaxLen bound).fwd = s.fwd := rfl
@[simp] theorem withMaxLen_inv : (s.withMaxLen bound).inv = s.inv := rfl
@[simp] theorem withMaxLen_alphaValid : (s.withMaxLen bound).alphaValid = s.alphaValid := rfl
@[simp] theorem withMaxLen_xform : (s.withMaxLen bound).xform = s.xform := rfl
@[simp] theorem withMaxLen_bluff : (s.withMaxLen bound).bluff = s.bluff := rfl
@[simp] theorem withMaxLen_fixedKey : (s.withMaxLen bound).fixedKey = s.fixedKey := rfl
@[simp] theorem withMaxLen_inp : (s.withMaxLen bound).inp = s.inp := rfl
@[simp] theorem withMaxLen_xcand : (s.withMaxLen bound).xcand = s.xcand := rfl
@[simp] theorem withMaxLen_rnd : (s.withMaxLen bound).rnd = s.rnd := rfl

/-! ## The shared operations -/

@[simp] theorem succeedRes_withMaxLen (v : Byte) :
    (s.withMaxLen bound).succeedRes v = (s.succeedRes v).withMaxLen bound := rfl

@[simp] theorem succeedOut_withMaxLen (l : List Byte) :
    (s.withMaxLen bound).succeedOut l = (s.succeedOut l).withMaxLen bound := rfl

@[simp] theorem raise_withMaxLen (k : ErrorKind) (r : ResultReg) :
    raise k r (s.withMaxLen bound) = (raise k r s).withMaxLen bound := by
  cases r <;> rfl

@[simp] theorem illegalCommand_withMaxLen :
    illegalCommand (s.withMaxLen bound) = (illegalCommand s).withMaxLen bound := rfl

/-- Key selection fails alike, or chooses the same key with the same draw. -/
@[simp] theorem selectKey_withMaxLen :
    selectKey (s.withMaxLen bound) = (selectKey s).map fun p => (p.1, p.2.withMaxLen bound) := by
  rcases selectKey_cases s with ⟨hb, e⟩ | ⟨hb, hk, e⟩ | ⟨hb, hk, e⟩ <;> rw [e]
  case inl => simp [selectKey, hb, Except.map, State.withMaxLen]
  all_goals simp [selectKey, hb, hk, Except.map]

@[simp] theorem encodeSelected_withMaxLen (form : Form) :
    encodeSelected form (s.withMaxLen bound) = (encodeSelected form s).withMaxLen bound := by
  rw [encodeSelected, encodeSelected, selectKey_withMaxLen]
  cases selectKey s with
  | error k => exact raise_withMaxLen bound s k .out
  | ok p =>
    simp only [Except.map, withMaxLen_fwd, withMaxLen_xform, withMaxLen_inp]
    cases encodeMessage form p.2.fwd p.2.xform.T p.1 p.2.inp <;> rfl

@[simp] theorem decodeChecked_withMaxLen (form : Form) :
    decodeChecked form (s.withMaxLen bound) = (decodeChecked form s).withMaxLen bound := by
  simp [decodeChecked, apply_ite (State.withMaxLen bound)]

/-! ## The commands -/

/-- A command commutes with setting `MAX_LEN`: no check it makes and no table it reads is changed by it. -/
theorem exec_withMaxLen {i : Instr} {t : State} (h : exec i s = .next t) :
    exec i (s.withMaxLen bound) = .next (t.withMaxLen bound) := by
  -- `h` names the next state of each meaning, which leaves an equation of two states
  cases i <;> cases h <;> refine congrArg Host.Outcome.next ?_
  case setalpha =>
    rw [withMaxLen_inp]
    cases alphabetOf s.inp <;> rfl
  case shuffle =>
    rw [withMaxLen_alphaValid, withMaxLen_fwd, withMaxLen_rnd]
    -- the loop's result stays opaque, or `rfl` runs the 63 rounds
    generalize shuffleFrom 63 s.fwd s.rnd = shuffled
    cases s.alphaValid <;> rfl
  case setxform =>
    rw [withMaxLen_xcand, withMaxLen_probeKey]
    cases transformAccepted s.xcand s.params.probeKey <;> rfl
  case setkey a =>
    rw [withMaxLen_alphaValid, withMaxLen_inv]
    cases s.alphaValid <;> cases isSymbol s.inv a <;> rfl
  case nextkey =>
    rw [withMaxLen_alphaValid, selectKey_withMaxLen]
    cases s.alphaValid <;> cases selectKey s <;> rfl
  case xfwd | xinv | setbluff => rfl
  case valueof | symbolof | enc | dec | enca | deca => simp [apply_ite (State.withMaxLen bound)]

end

/-- Settles O11: every command completes and commutes with setting `MAX_LEN`. -/
theorem maxLenChangesNoResult : Obligations.MaxLenChangesNoResult := by
  intro i s bound
  obtain ⟨t, ht⟩ := exec_completes i s
  exact ⟨t, ht, exec_withMaxLen bound s ht⟩

end Sys2Proof.Machine
end

section
/-! SUPPORT. What each command writes, the rows of the access matrix (R41), and how a step runs a command: the rule by which
every invariant of the block follows from the commands alone. -/

namespace Sys2Proof.Machine

open Sys2Proof.Claim

/-! ## The access matrix -/

/-- `STATUS` after a command: `OK`, or the code of the error it raised (R200, R201). -/
def outcomeCode : Option ErrorKind → StatusCode
  | none => statusOk
  | some k => errorCode k

theorem outcomeCode_le (e : Option ErrorKind) : (outcomeCode e).toNat ≤ 8 := by
  cases e with
  | none => decide
  | some k => exact (errorCode_range k).2

/-- The access matrix of R41: the states a command can leave, with any value in the columns of its row. -/
inductive Writes (s : State) : Instr → State → Prop
  | setalpha (e : Option ErrorKind) (F : Vector Byte 64) (N : Vector Byte 256) (valid : Bool) :
    Writes s .setalpha { s with fwd := F, inv := N, alphaValid := valid, status := outcomeCode e }
  | shuffle (e : Option ErrorKind) (F : Vector Byte 64) (N : Vector Byte 256) (r : RandomSource) :
    Writes s .shuffle { s with fwd := F, inv := N, rnd := r, status := outcomeCode e }
  | valueof (e : Option ErrorKind) (a v : Byte) : Writes s (.valueof a) { s with res := v, status := outcomeCode e }
  | symbolof (e : Option ErrorKind) (a v : Byte) : Writes s (.symbolof a) { s with res := v, status := outcomeCode e }
  | setxform (e : Option ErrorKind) (x : Xform) : Writes s .setxform { s with xform := x, status := outcomeCode e }
  | xfwd (a b v : Byte) : Writes s (.xfwd a b) { s with res := v, status := statusOk }
  | xinv (a b v : Byte) : Writes s (.xinv a b) { s with res := v, status := statusOk }
  | setbluff (enabled : Bool) : Writes s (.setbluff enabled) { s with bluff := enabled, status := statusOk }
  | setkey (e : Option ErrorKind) (a k : Byte) : Writes s (.setkey a) { s with fixedKey := k, status := outcomeCode e }
  | nextkey (e : Option ErrorKind) (v : Byte) (r : RandomSource) :
    Writes s .nextkey { s with res := v, rnd := r, status := outcomeCode e }
  | enc (e : Option ErrorKind) (l : List Byte) (r : RandomSource) :
    Writes s .enc { s with out := l, rnd := r, status := outcomeCode e }
  | dec (e : Option ErrorKind) (l : List Byte) : Writes s .dec { s with out := l, status := outcomeCode e }
  | enca (e : Option ErrorKind) (l : List Byte) (r : RandomSource) :
    Writes s .enca { s with out := l, rnd := r, status := outcomeCode e }
  | deca (e : Option ErrorKind) (l : List Byte) : Writes s .deca { s with out := l, status := outcomeCode e }

/-- Key selection changes nothing but the random source (R140). -/
theorem selectKey_frame {s t : State} {key : Byte} (h : selectKey s = .ok (key, t)) : ∃ r, t = { s with rnd := r } := by
  rcases selectKey_ok h with ⟨-, -, -, rfl⟩ | ⟨-, -, rfl⟩
  · exact ⟨t.rnd, rfl⟩
  · exact ⟨_, rfl⟩

theorem encodeSelected_frame (form : Form) (s : State) :
    ∃ e l r, encodeSelected form s = { s with out := l, rnd := r, status := outcomeCode e } := by
  rcases encodeSelected_cases form s with ⟨-, e⟩ | ⟨key, t, hk, h⟩
  · exact ⟨some .invalidKey, [], s.rnd, e⟩
  · obtain ⟨r, rfl⟩ := selectKey_frame hk
    rcases h with ⟨-, e⟩ | ⟨blocks, -, e⟩
    · exact ⟨some .transformRangeEscape, [], r, e⟩
    · exact ⟨none, key :: blocks, r, e⟩

theorem decodeChecked_frame (form : Form) (s : State) :
    ∃ e l, decodeChecked form s = { s with out := l, status := outcomeCode e } := by
  rcases decodeChecked_cases form s with ⟨-, e⟩ | ⟨-, -, e⟩ | ⟨-, -, -, e⟩ | ⟨-, -, -, e⟩
  · exact ⟨some .invalidAlphabet, [], e⟩
  · exact ⟨some .malformedMessage, [], e⟩
  · exact ⟨some .unknownSymbol, [], e⟩
  · exact ⟨none, _, e⟩

/-- A command writes only the columns of its row. -/
theorem exec_writes {i : Instr} {s t : State} (h : exec i s = .next t) : Writes s i t := by
  cases i with
  | setalpha =>
    rcases execSetalpha_cases s with ⟨F, -, -, e⟩ | ⟨-, e⟩ <;> cases h.symm.trans e
    · exact .setalpha none F (rebuildInv F) true
    · exact .setalpha (some .invalidAlphabet) s.fwd s.inv s.alphaValid
  | shuffle =>
    rcases execShuffle_cases s with ⟨-, e⟩ | ⟨-, e⟩ <;> cases h.symm.trans e
    · exact .shuffle none _ _ _
    · exact .shuffle (some .invalidAlphabet) s.fwd s.inv s.rnd
  | valueof a =>
    rcases execValueof_cases a s with ⟨-, e⟩ | ⟨-, -, e⟩ | ⟨-, -, e⟩ <;> cases h.symm.trans e
    · exact .valueof (some .invalidAlphabet) a 0x00
    · exact .valueof (some .unknownSymbol) a 0x00
    · exact .valueof none a _
  | symbolof a =>
    rcases execSymbolof_cases a s with ⟨-, e⟩ | ⟨-, -, e⟩ | ⟨-, -, e⟩ <;> cases h.symm.trans e
    · exact .symbolof (some .illegalCommand) a s.res
    · exact .symbolof (some .invalidAlphabet) a 0x00
    · exact .symbolof none a _
  | setxform =>
    rcases execSetxform_cases s with ⟨-, e⟩ | ⟨-, e⟩ <;> cases h.symm.trans e
    · exact .setxform none s.xcand
    · exact .setxform (some .invalidTransform) s.xform
  | xfwd a b => cases h; exact .xfwd a b _
  | xinv a b => cases h; exact .xinv a b _
  | setbluff enabled => cases h; exact .setbluff enabled
  | setkey a =>
    rcases execSetkey_cases a s with ⟨-, e⟩ | ⟨-, -, e⟩ | ⟨-, -, e⟩ <;> cases h.symm.trans e
    · exact .setkey (some .invalidAlphabet) a s.fixedKey
    · exact .setkey (some .invalidKey) a s.fixedKey
    · exact .setkey none a a
  | nextkey =>
    rcases execNextkey_cases s with ⟨-, e⟩ | ⟨-, -, e⟩ | ⟨-, key, u, hk, e⟩ <;> cases h.symm.trans e
    · exact .nextkey (some .invalidAlphabet) 0x00 s.rnd
    · exact .nextkey (some .invalidKey) 0x00 s.rnd
    · obtain ⟨r, rfl⟩ := selectKey_frame hk
      exact .nextkey none key r
  | enc =>
    rcases execEnc_cases s with ⟨-, e⟩ | ⟨-, -, e⟩ | ⟨-, -, e⟩ <;> cases h.symm.trans e
    · exact .enc none [] s.rnd
    · exact .enc (some .invalidAlphabet) [] s.rnd
    · obtain ⟨k, l, r, e⟩ := encodeSelected_frame .general s
      exact e ▸ .enc k l r
  | dec =>
    rcases execDec_cases s with ⟨-, e⟩ | ⟨-, e⟩ <;> cases h.symm.trans e
    · exact .dec none []
    · obtain ⟨k, l, e⟩ := decodeChecked_frame .general s
      exact e ▸ .dec k l
  | enca =>
    rcases execEnca_cases s with ⟨-, e⟩ | ⟨-, -, e⟩ | ⟨-, -, -, e⟩ | ⟨-, -, -, e⟩ <;> cases h.symm.trans e
    · exact .enca none [] s.rnd
    · exact .enca (some .invalidAlphabet) [] s.rnd
    · exact .enca (some .outOfRangeByte) [] s.rnd
    · obtain ⟨k, l, r, e⟩ := encodeSelected_frame .ascii s
      exact e ▸ .enca k l r
  | deca =>
    rcases execDeca_cases s with ⟨-, e⟩ | ⟨-, e⟩ <;> cases h.symm.trans e
    · exact .deca none []
    · obtain ⟨k, l, e⟩ := decodeChecked_frame .ascii s
      exact e ▸ .deca k l

/-- Settles O20: each row of the access matrix leaves every other column as it was. -/
theorem commandsWriteOnlyTheirColumns : Obligations.CommandsWriteOnlyTheirColumns := by
  intro i s t h
  cases exec_writes h <;> simp [WritesRes, WritesOut]

/-- The parameters, the operands and the port are in no row of the matrix. -/
theorem exec_keeps_params_operands_port {i : Instr} {s t : State} (h : exec i s = .next t) :
    t.params = s.params ∧ t.inp = s.inp ∧ t.xcand = s.xcand ∧ t.pending = s.pending := by
  cases exec_writes h <;> exact ⟨rfl, rfl, rfl, rfl⟩

/-- A command leaves a code of the table of R201 in `STATUS`, in whatever state it ran. -/
theorem exec_statusLegal {i : Instr} {s t : State} (h : exec i s = .next t) : StatusLegal t := by
  cases exec_writes h
  case xfwd | xinv | setbluff => exact outcomeCode_le none
  all_goals exact outcomeCode_le _

/-! ## Steps -/

/-- Settles O8: nothing is taken from an empty port. -/
theorem idlePortChangesNothing : Obligations.IdlePortChangesNothing := by
  intro s hp
  rcases takeRequest_cases s with ⟨-, e⟩ | ⟨q, rest, hq, -⟩
  · rw [step, e]
  · cases hp.symm.trans hq

/-- Settles O6: retiring the command's outcome drops the operands of a next state and passes a stop on. -/
theorem stepRunsDecodedCommand : Obligations.StepRunsDecodedCommand := by
  intro s q rest i hp hd
  have taken : step s = retireResult (exec i { s with pending := rest, inp := q.inp, xcand := q.xcand }) := by
    simp only [step, takeRequest, hp, hd]
  rw [taken]
  cases exec i { s with pending := rest, inp := q.inp, xcand := q.xcand } <;> rfl

/-- The rule of step invariants: `P` holds between commands and `Q` while one runs. -/
theorem step_keeps {P Q : State → Prop}
    (take : ∀ {s : State} {q : Request} {rest : List Request}, s.pending = q :: rest → P s →
      Q { s with pending := rest, inp := q.inp, xcand := q.xcand })
    (illegal : ∀ {s : State}, Q s → Q (illegalCommand s))
    (run : ∀ {i : Instr} {s t : State}, exec i s = .next t → Q s → Q t)
    (retire : ∀ {s : State}, Q s → P (retire s))
    {s t : State} (h : step s = .next t) (hs : P s) : P t := by
  rcases step_cases h with ⟨-, rfl⟩ | ⟨q, rest, hp, ⟨-, -, rfl⟩ | ⟨i, u, -, hu, rfl⟩⟩
  · exact hs
  · exact retire (illegal (take hp hs))
  · exact retire (run hu (take hp hs))

end Sys2Proof.Machine
end

section
/-! SUPPORT. The invariants of the block's state (R26, R38): each command keeps them, so every step does, and reset
establishes them (R39). -/

namespace Sys2Proof.Machine

open Sys2Proof.Claim

/-! ## The alphabet -/

/-- The alphabet invariant is about the tables and `ALPHA_VALID` alone. -/
theorem AlphabetInv.congr {s t : State} (h : AlphabetInv s) (hf : t.fwd = s.fwd) (hi : t.inv = s.inv)
    (hv : t.alphaValid = s.alphaValid) : AlphabetInv t where
  distinct := by rw [hf, hv]; exact h.distinct
  inverse := by rw [hf, hi, hv]; exact h.inverse
  foreign := by rw [hf, hi, hv]; exact h.foreign

theorem exec_keeps_alphabetInv {i : Instr} {s t : State} (h : exec i s = .next t) (hs : AlphabetInv s) :
    AlphabetInv t := by
  obtain ⟨tables, valid, -⟩ := commandsWriteOnlyTheirColumns i s t h
  by_cases hset : i = .setalpha
  · subst hset
    rcases execSetalpha_cases s with ⟨F, hF, hnodup, e⟩ | ⟨-, e⟩ <;> cases h.symm.trans e
    · exact alphabetInv_of_rebuilt (hF ▸ hnodup) rfl rfl
    · exact hs.congr rfl rfl rfl
  by_cases hshuffle : i = .shuffle
  · subst hshuffle
    rcases execShuffle_cases s with ⟨hv, e⟩ | ⟨-, e⟩ <;> cases h.symm.trans e
    · have hnodup := (shuffleFrom_perm 63 s.fwd s.rnd).nodup_iff.2 (hs.distinct hv)
      -- the loop's result stays opaque, or `rfl` runs the 63 rounds
      generalize shuffleFrom 63 s.fwd s.rnd = shuffled at hnodup ⊢
      exact alphabetInv_of_rebuilt hnodup rfl rfl
    · exact hs.congr rfl rfl rfl
  obtain ⟨hf, hi⟩ := tables hset hshuffle
  exact hs.congr hf hi (valid hset)

/-- Settles O14: `SETALPHA` and `SHUFFLE` rebuild `INV` from distinct symbols, and no other command writes the tables. -/
theorem stepKeepsAlphabetInvariant : Obligations.StepKeepsAlphabetInvariant := by
  intro s t hs h
  exact step_keeps (Q := AlphabetInv) (fun _ hs => hs.congr rfl rfl rfl) (fun hs => hs.congr rfl rfl rfl)
    exec_keeps_alphabetInv (fun hs => hs.congr rfl rfl rfl) h hs

/-- What no command of a life takes back, seen from an earlier state `s`: an installed alphabet and the parameters. -/
def KeptFrom (s t : State) : Prop := (s.alphaValid = true → t.alphaValid = true) ∧ t.params = s.params

theorem exec_keptFrom {i : Instr} {s t : State} (h : exec i s = .next t) : KeptFrom s t := by
  obtain ⟨-, valid, -⟩ := commandsWriteOnlyTheirColumns i s t h
  refine ⟨fun hv => ?_, (exec_keeps_params_operands_port h).1⟩
  by_cases hset : i = .setalpha
  · subst hset
    rcases execSetalpha_cases s with ⟨F, -, -, e⟩ | ⟨-, e⟩ <;> cases h.symm.trans e
    · rfl
    · exact hv
  · rw [valid hset]
    exact hv

theorem KeptFrom.trans {s t u : State} (h : KeptFrom t u) (h' : KeptFrom s t) : KeptFrom s u :=
  ⟨fun hv => h.1 (h'.1 hv), h.2.trans h'.2⟩

/-- Settles O19: only `SETALPHA` writes `ALPHA_VALID`, and it writes 1. -/
theorem alphaValidIsNeverCleared : Obligations.AlphaValidIsNeverCleared := by
  intro s t h
  exact step_keeps (P := KeptFrom s) (Q := KeptFrom s) (fun _ hs => hs) (fun hs => hs)
    (fun h hs => (exec_keptFrom h).trans hs) (fun hs => hs) h ⟨fun hv => hv, rfl⟩

/-! ## The transform -/

theorem exec_keeps_xformAdmitted {i : Instr} {s t : State} (h : exec i s = .next t) (hs : XformAdmitted s) :
    XformAdmitted t := by
  by_cases hset : i = .setxform
  · subst hset
    rcases execSetxform_cases s with ⟨hx, e⟩ | ⟨-, e⟩ <;> cases h.symm.trans e
    · exact hx
    · exact hs
  · obtain ⟨-, -, hx, -⟩ := commandsWriteOnlyTheirColumns i s t h
    rw [XformAdmitted, hx hset, (exec_keeps_params_operands_port h).1]
    exact hs

theorem step_keeps_xformAdmitted {s t : State} (h : step s = .next t) (hs : XformAdmitted s) : XformAdmitted t :=
  step_keeps (Q := XformAdmitted) (fun _ hs => hs) (fun hs => hs) exec_keeps_xformAdmitted (fun hs => hs) h hs

/-- A command installs no transform but the candidate. -/
theorem exec_xform_eq_or {i : Instr} {s t : State} (h : exec i s = .next t) : t.xform = s.xform ∨ t.xform = s.xcand := by
  by_cases hset : i = .setxform
  · subst hset
    rcases execSetxform_cases s with ⟨-, e⟩ | ⟨-, e⟩ <;> cases h.symm.trans e
    · exact .inr rfl
    · exact .inl rfl
  · obtain ⟨-, -, hx, -⟩ := commandsWriteOnlyTheirColumns i s t h
    exact .inl (hx hset)

theorem exec_keeps_tablesCanonical {i : Instr} {s t : State} (h : exec i s = .next t) (hs : TablesCanonical s) :
    TablesCanonical t := by
  obtain ⟨-, -, hc, hp⟩ := exec_keeps_params_operands_port h
  refine ⟨?_, hc ▸ hs.xcand, hp ▸ hs.pending⟩
  rcases exec_xform_eq_or h with hx | hx <;> rw [hx]
  · exact hs.xform
  · exact hs.xcand

theorem step_keeps_tablesCanonical {s t : State} (h : step s = .next t) (hs : TablesCanonical s) : TablesCanonical t :=
  step_keeps (Q := TablesCanonical)
    (fun {_ q rest} hp hs =>
      have hq : ∀ r ∈ q :: rest, r.xcand.wf = true := hp ▸ hs.pending
      ⟨hs.xform, (List.forall_mem_cons.1 hq).1, (List.forall_mem_cons.1 hq).2⟩)
    (fun hs => ⟨hs.xform, hs.xcand, hs.pending⟩) exec_keeps_tablesCanonical
    (fun hs => ⟨hs.xform, rfl, hs.pending⟩) h hs

/-! ## STATUS -/

theorem step_keeps_statusLegal {s t : State} (h : step s = .next t) (hs : StatusLegal s) : StatusLegal t :=
  step_keeps (Q := StatusLegal) (fun _ hs => hs) (fun _ => outcomeCode_le (some .illegalCommand))
    (fun h _ => exec_statusLegal h) (fun hs => hs) h hs

/-! ## The capacity of OUT -/

/-- The message of an encoder: no longer than the general-form message, the longer of the two (R157, R181). -/
theorem encodeSelected_out_length (form : Form) (s : State) :
    (encodeSelected form s).out.length ≤ s.inp.length + (s.inp.length + 2) / 3 + 1 := by
  rcases encodeSelected_cases form s with ⟨-, e⟩ | ⟨key, t, -, ⟨-, e⟩ | ⟨blocks, hb, e⟩⟩ <;> rw [e]
  · exact Nat.zero_le _
  · exact Nat.zero_le _
  · rw [succeedOut_out, List.length_cons, encodeGroups_length hb]
    cases form
    · simp only [slots, Config.genGroup]; omega
    · simp only [slots, Config.ascGroup]; omega

/-- A text stands for no more bytes than it has symbols (R161, R185). -/
theorem decodeMessage_length_le (form : Form) (N : Vector Byte 256) (I : Byte → Byte → Byte) (text : List Byte) :
    (decodeMessage form N I text).length ≤ text.length := by
  cases text with
  | nil => exact Nat.le_refl 0
  | cons key body =>
    rw [decodeMessage, decodeBlocks_length, List.length_cons]
    exact (Nat.sub_le _ _).trans (Nat.le_succ _)

theorem decodeChecked_out_length (form : Form) (s : State) : (decodeChecked form s).out.length ≤ s.inp.length := by
  rcases decodeChecked_cases form s with ⟨-, e⟩ | ⟨-, -, e⟩ | ⟨-, -, -, e⟩ | ⟨-, -, -, e⟩ <;> rw [e]
  case inr.inr.inr => exact decodeMessage_length_le form s.inv s.xform.I s.inp
  all_goals exact Nat.zero_le _

/-- A codec's result is at most as long as the general-form message of its `IN` (R53). -/
theorem exec_out_length {i : Instr} {s t : State} (h : exec i s = .next t) (hw : WritesOut i) :
    t.out.length ≤ s.inp.length + (s.inp.length + 2) / 3 + 1 := by
  cases i with
  | enc =>
    rcases execEnc_cases s with ⟨-, e⟩ | ⟨-, -, e⟩ | ⟨-, -, e⟩ <;> cases h.symm.trans e
    · exact Nat.zero_le _
    · exact Nat.zero_le _
    · exact encodeSelected_out_length .general s
  | dec =>
    rcases execDec_cases s with ⟨-, e⟩ | ⟨-, e⟩ <;> cases h.symm.trans e
    · exact Nat.zero_le _
    · exact (decodeChecked_out_length .general s).trans (by omega)
  | enca =>
    rcases execEnca_cases s with ⟨-, e⟩ | ⟨-, -, e⟩ | ⟨-, -, -, e⟩ | ⟨-, -, -, e⟩ <;> cases h.symm.trans e
    · exact Nat.zero_le _
    · exact Nat.zero_le _
    · exact Nat.zero_le _
    · exact encodeSelected_out_length .ascii s
  | deca =>
    rcases execDeca_cases s with ⟨-, e⟩ | ⟨-, e⟩ <;> cases h.symm.trans e
    · exact Nat.zero_le _
    · exact (decodeChecked_out_length .ascii s).trans (by omega)
  | _ => exact hw.elim

/-- What R33 and R34 bound while a command runs: `OUT`, the `IN` of each request at the port, and the `IN` in hand. -/
structure LengthsFit (s : State) : Prop where
  out      : OutFits s
  requests : RequestsFit s
  inp      : InputAccepted s.params s.inp

theorem exec_keeps_lengthsFit {i : Instr} {s t : State} (h : exec i s = .next t) (hs : LengthsFit s) : LengthsFit t := by
  obtain ⟨hparams, hinp, -, hpending⟩ := exec_keeps_params_operands_port h
  refine ⟨fun m hm => ?_, ?_, ?_⟩
  · rw [hparams] at hm
    by_cases hw : WritesOut i
    · have hlen := exec_out_length h hw
      have hin := hs.inp m hm
      omega
    · obtain ⟨-, -, -, -, -, -, hout, -⟩ := commandsWriteOnlyTheirColumns i s t h
      rw [hout hw]
      exact hs.out m hm
  · rw [RequestsFit, hparams, hpending]
    exact hs.requests
  · rw [hparams, hinp]
    exact hs.inp

/-- Settles O16: a command's `OUT` is bounded by its own `IN`, which the host keeps within `MAX_LEN`. -/
theorem stepKeepsOutWithinCapacity : Obligations.StepKeepsOutWithinCapacity := by
  intro s t hout hreq h
  exact step_keeps (P := fun s => OutFits s ∧ RequestsFit s) (Q := LengthsFit)
    (fun {s q rest} hp ⟨hout, hreq⟩ =>
      have hq : ∀ r ∈ q :: rest, InputAccepted s.params r.inp := hp ▸ hreq
      ⟨hout, (List.forall_mem_cons.1 hq).2, (List.forall_mem_cons.1 hq).1⟩)
    (fun hs => ⟨hs.out, hs.requests, hs.inp⟩) exec_keeps_lengthsFit (fun hs => ⟨hs.out, hs.requests⟩) h ⟨hout, hreq⟩

/-! ## The whole invariant -/

/-- Settles O17: each part of the invariant is kept by every step. -/
theorem stepKeepsInvariant : Obligations.StepKeepsInvariant := by
  intro s t hs h
  obtain ⟨hout, hreq⟩ := stepKeepsOutWithinCapacity s t hs.out hs.requests h
  exact {
    alphabet := stepKeepsAlphabetInvariant s t hs.alphabet h
    xform := step_keeps_xformAdmitted h hs.xform
    canonical := step_keeps_tablesCanonical h hs.canonical
    status := step_keeps_statusLegal h hs.status
    requests := hreq
    out := hout
    params := by
      rw [ParamsLegal, (alphaValidIsNeverCleared s t h).2]
      exact hs.params }

/-! ## Reset -/

/-- The tables and the key of a machine with a default alphabet (R39, R232). -/
theorem resetOf_some {p : Params} {F : Vector Byte 64} (h : p.defaultAlphabet = some F) :
    (State.resetOf p).alphaValid = true ∧ (State.resetOf p).fwd = F ∧ (State.resetOf p).inv = rebuildInv F ∧
      (State.resetOf p).fixedKey = readFwd F 0 := by
  simp [State.resetOf, h]

theorem resetOf_none {p : Params} (h : p.defaultAlphabet = none) :
    (State.resetOf p).alphaValid = false ∧ (State.resetOf p).fixedKey = 0x00 := by
  simp [State.resetOf, h]

/-- Settles O12: a default alphabet is installed with its rebuilt `INV`. -/
theorem resetStateFollowsTable : Obligations.ResetStateFollowsTable := by
  refine ⟨rfl, fun p => ⟨fun b k => ⟨default_T b k, default_I b k⟩, rfl, rfl, rfl, rfl, resetOf_none, ?_⟩⟩
  intro F hF hnodup
  obtain ⟨hv, hf, hi, hk⟩ := resetOf_some hF
  refine ⟨hv, hf, hk, fun v => ?_, fun b hb => ?_⟩
  · rw [hi]
    exact readInv_rebuildInv_readFwd hnodup v
  · rw [hi]
    exact readInv_rebuildInv_foreign hb

/-- R128 and R232 as propositions. -/
theorem params_legal_iff (p : Params) : p.legal = true ↔
    p.probeKey.toNat % 128 ≠ 0 ∧ ∀ F, p.defaultAlphabet = some F → F.toList.Nodup := by
  cases h : p.defaultAlphabet <;> simp [Params.legal, h]

theorem resetOf_alphabetInv {p : Params} (h : p.legal = true) : AlphabetInv (State.resetOf p) := by
  cases hd : p.defaultAlphabet with
  | none =>
    have hv : (State.resetOf p).alphaValid ≠ true := by simp [(resetOf_none hd).1]
    exact ⟨fun e => absurd e hv, fun e => absurd e hv, fun e => absurd e hv⟩
  | some F =>
    obtain ⟨-, hf, hi, -⟩ := resetOf_some hd
    exact alphabetInv_of_rebuilt (((params_legal_iff p).1 h).2 F hd) hf hi

theorem resetOf_inv {p : Params} (h : p.legal = true) : Inv (State.resetOf p) where
  alphabet := resetOf_alphabetInv h
  xform := default_undoes p.probeKey
  canonical := ⟨rfl, rfl, List.forall_mem_nil _⟩
  status := Nat.zero_le 8
  requests := List.forall_mem_nil _
  out _ _ := Nat.zero_le _
  params := h

/-- The bytes `Config.nthProbeKey` counts are legal probe keys (R128). -/
theorem nthProbeKey_legal {k : Nat} (h : k < 254) : (Config.nthProbeKey k).toNat % 128 ≠ 0 := by
  unfold Config.nthProbeKey
  split <;> simp only [BitVec.toNat_ofNat] <;> omega

/-- The parameters of `State.reset` are legal, whatever its free constants are (log 4). -/
theorem config_params_legal : Config.params.legal = true := by
  refine (params_legal_iff _).2 ⟨nthProbeKey_legal Config.probeKeyIndex.isLt, fun F hF => ?_⟩
  exact of_decide_eq_true (Option.filter_eq_some_iff.1 hF).2

/-- Settles O13: the parameters of `State.reset` are legal too. -/
theorem resetMeetsInvariant : Obligations.ResetMeetsInvariant :=
  ⟨fun _ h => resetOf_inv h, resetOf_inv config_params_legal⟩

end Sys2Proof.Machine
end

section
/-! SUPPORT. While no alphabet is installed no command but `SETALPHA` depends on the tables: it commutes with setting them
(R25, U11). -/

namespace Sys2Proof.Machine

/-- With no alphabet a decoder stops at its first check. -/
theorem decodeChecked_of_no_alphabet {s : State} (hv : s.alphaValid = false) (form : Form) :
    decodeChecked form s = raise .invalidAlphabet .out s := by
  simp [decodeChecked, hv]

/-- The state with other contents of `FWD` and `INV`. -/
def State.withTables (F : Vector Byte 64) (N : Vector Byte 256) (s : State) : State := { s with fwd := F, inv := N }

section

variable (F : Vector Byte 64) (N : Vector Byte 256) (s : State)

@[simp] theorem withTables_params : (s.withTables F N).params = s.params := rfl
@[simp] theorem withTables_alphaValid : (s.withTables F N).alphaValid = s.alphaValid := rfl
@[simp] theorem withTables_inp : (s.withTables F N).inp = s.inp := rfl
@[simp] theorem withTables_xcand : (s.withTables F N).xcand = s.xcand := rfl

@[simp] theorem succeedOut_withTables (l : List Byte) :
    (s.withTables F N).succeedOut l = (s.succeedOut l).withTables F N := rfl

@[simp] theorem raise_withTables (k : ErrorKind) (r : ResultReg) :
    raise k r (s.withTables F N) = (raise k r s).withTables F N := by
  cases r <;> rfl

@[simp] theorem illegalCommand_withTables :
    illegalCommand (s.withTables F N) = (illegalCommand s).withTables F N := rfl

/-- With no alphabet a command other than `SETALPHA` commutes with setting the tables. -/
theorem exec_withTables {i : Instr} {t : State} (hi : i ≠ .setalpha) (hv : s.alphaValid = false)
    (h : exec i s = .next t) : exec i (s.withTables F N) = .next (t.withTables F N) := by
  -- `h` names the next state of each meaning, which leaves an equation of two states
  cases i <;> cases h <;> refine congrArg Host.Outcome.next ?_
  case setalpha => exact absurd rfl hi
  case xfwd | xinv | setbluff => rfl
  case setxform =>
    rw [withTables_xcand, withTables_params]
    cases transformAccepted s.xcand s.params.probeKey <;> rfl
  case shuffle | valueof | setkey | nextkey => simp [hv]
  case symbolof => simp [hv, apply_ite (State.withTables F N)]
  case enc | enca | dec | deca => simp [hv, decodeChecked_of_no_alphabet, apply_ite (State.withTables F N)]

end

/-- Settles O22: a command that would read the tables looks at `ALPHA_VALID` first. -/
theorem tablesUnreadWithoutAlphabet : Obligations.TablesUnreadWithoutAlphabet := by
  intro i s t F N hi hv h
  exact exec_withTables F N s hi hv h

end Sys2Proof.Machine
end

section
/-! SUPPORT. A transform in canonical form is fixed by its two functions, and every two functions have one (R28, log 7). -/

namespace Sys2Proof.Machine

/-- Transforms in canonical form with the same functions are equal (log 7). -/
theorem xform_ext {x y : Xform} (hx : x.wf = true) (hy : y.wf = true) (hT : ∀ b k, x.T b k = y.T b k)
    (hI : ∀ b k, x.I b k = y.I b k) : x = y := by
  obtain ⟨hxT, hxI⟩ := (Bool.and_eq_true _ _).mp hx
  obtain ⟨hyT, hyI⟩ := (Bool.and_eq_true _ _).mp hy
  cases x
  cases y
  exact congrArg₂ Xform.mk (wf_ext hxT hyT hT) (wf_ext hxI hyI hI)

/-- Settles O41: the tables of the two functions are the one transform. -/
theorem everyFunctionPairIsOneTransform : Obligations.EveryFunctionPairIsOneTransform := by
  intro f g
  have wf : Xform.wf ⟨tableOf f, tableOf g⟩ = true := by simp only [Xform.wf, wf_tableOf, Bool.and_self]
  refine ⟨⟨tableOf f, tableOf g⟩, ⟨wf, applyTable_tableOf f, applyTable_tableOf g⟩, ?_⟩
  rintro x ⟨hx, hT, hI⟩
  exact xform_ext hx wf (fun b k => (hT b k).trans (applyTable_tableOf f b k).symm)
    fun b k => (hI b k).trans (applyTable_tableOf g b k).symm

end Sys2Proof.Machine
end

section
/-! SUPPORT. The port and the result registers: a step takes exactly one request (R58), and the commands that write no
configuration and draw nothing do not see each other (R61). No command reads a result register: the next state is that of
the same state with other results, in all but the register that is not the command's own. -/

namespace Sys2Proof.Machine

open Sys2Proof.Claim

/-- Settles O7: only taking a request writes the port, and it takes the first one. -/
theorem stepTakesOneRequest : Obligations.StepTakesOneRequest := by
  intro s t h
  rcases step_cases h with ⟨hp, rfl⟩ | ⟨q, rest, hp, ⟨-, -, rfl⟩ | ⟨i, u, -, hu, rfl⟩⟩ <;> rw [hp]
  · rfl
  · rfl
  · obtain ⟨-, -, -, hpending⟩ := exec_keeps_params_operands_port hu
    exact hpending

/-! ## Setting the results -/

/-- The state with other contents of `RES`, `OUT` and `STATUS`. -/
def State.withResults (v : Byte) (l : List Byte) (c : StatusCode) (s : State) : State :=
  { s with res := v, out := l, status := c }

/-- The state with another content of `RES`. -/
def State.withRes (v : Byte) (s : State) : State := { s with res := v }

/-- The state with another content of `OUT`. -/
def State.withOut (l : List Byte) (s : State) : State := { s with out := l }

section

variable (v : Byte) (l : List Byte) (c : StatusCode) (s : State)

@[simp] theorem withResults_fwd : (s.withResults v l c).fwd = s.fwd := rfl
@[simp] theorem withResults_inv : (s.withResults v l c).inv = s.inv := rfl
@[simp] theorem withResults_alphaValid : (s.withResults v l c).alphaValid = s.alphaValid := rfl
@[simp] theorem withResults_xform : (s.withResults v l c).xform = s.xform := rfl
@[simp] theorem withResults_inp : (s.withResults v l c).inp = s.inp := rfl

@[simp] theorem succeedRes_withResults (b : Byte) :
    (s.withResults v l c).succeedRes b = (s.succeedRes b).withOut l := rfl

@[simp] theorem succeedOut_withResults (k : List Byte) :
    (s.withResults v l c).succeedOut k = (s.succeedOut k).withRes v := rfl

@[simp] theorem raise_res_withResults (k : ErrorKind) :
    raise k .res (s.withResults v l c) = (raise k .res s).withOut l := rfl

@[simp] theorem raise_out_withResults (k : ErrorKind) :
    raise k .out (s.withResults v l c) = (raise k .out s).withRes v := rfl

/-- Key selection fails alike, or chooses the same key with the same draw. -/
@[simp] theorem selectKey_withResults :
    selectKey (s.withResults v l c) = (selectKey s).map fun p => (p.1, p.2.withResults v l c) := by
  rcases selectKey_cases s with ⟨hb, e⟩ | ⟨hb, hk, e⟩ | ⟨hb, hk, e⟩ <;> rw [e]
  case inl => simp [selectKey, hb, Except.map, State.withResults]
  all_goals simp [selectKey, hb, hk, Except.map, State.withResults]

@[simp] theorem encodeSelected_withResults (form : Form) :
    encodeSelected form (s.withResults v l c) = (encodeSelected form s).withRes v := by
  rw [encodeSelected, encodeSelected, selectKey_withResults]
  cases selectKey s with
  | error k => rfl
  | ok p =>
    simp only [Except.map, withResults_fwd, withResults_xform, withResults_inp]
    cases encodeMessage form p.2.fwd p.2.xform.T p.1 p.2.inp <;> rfl

@[simp] theorem decodeChecked_withResults (form : Form) :
    decodeChecked form (s.withResults v l c) = (decodeChecked form s).withRes v := by
  simp [decodeChecked, apply_ite (State.withRes v)]

/-! ## The commands -/

/-- A command with its result in `RES` reads no result and leaves `OUT` as it is. -/
theorem exec_withResults_of_writesRes {i : Instr} {u : State} (hi : i.wellFormed = true) (hw : WritesRes i)
    (h : exec i s = .next u) : exec i (s.withResults v l c) = .next (u.withOut l) := by
  -- `h` names the next state of each meaning, which leaves an equation of two states
  cases i <;> cases h <;> refine congrArg Host.Outcome.next ?_
  case valueof a =>
    rw [withResults_alphaValid, withResults_inv]
    cases s.alphaValid <;> cases isSymbol s.inv a <;> rfl
  case symbolof a =>
    -- an operand above 63 would leave `RES` as it is (R78)
    have ha : ¬ 64 ≤ a.toNat := Nat.not_le.2 (of_decide_eq_true hi)
    simp [ha, apply_ite (State.withOut l)]
  case xfwd | xinv => rfl
  case nextkey =>
    rw [withResults_alphaValid, selectKey_withResults]
    cases s.alphaValid <;> cases selectKey s <;> rfl
  all_goals exact hw.elim

/-- A command with its result in `OUT` reads no result and leaves `RES` as it is. -/
theorem exec_withResults_of_writesOut {i : Instr} {u : State} (hw : WritesOut i) (h : exec i s = .next u) :
    exec i (s.withResults v l c) = .next (u.withRes v) := by
  cases i <;> cases h <;> refine congrArg Host.Outcome.next ?_
  case enc | dec | enca | deca => simp [apply_ite (State.withRes v)]
  all_goals exact hw.elim

end

/-! ## The read-only commands -/

/-- A read-only command has one result register. -/
theorem one_result_of_readOnly {s : State} {i : Instr} (h : ReadOnly s i) :
    (WritesRes i ∧ ¬ WritesOut i) ∨ (WritesOut i ∧ ¬ WritesRes i) := by
  cases i
  case valueof | symbolof | xfwd | xinv | nextkey => exact .inl ⟨trivial, id⟩
  case enc | dec | enca | deca => exact .inr ⟨trivial, id⟩
  all_goals exact h.elim

/-- With bluff off key selection changes nothing (R140). -/
theorem selectKey_ok_of_bluff_off {s t : State} {key : Byte} (hb : s.bluff = false) (h : selectKey s = .ok (key, t)) :
    t = s := by
  rcases selectKey_ok h with ⟨-, -, -, ht⟩ | ⟨hb', -, -⟩
  · exact ht
  · cases hb.symm.trans hb'

theorem encodeSelected_rnd_of_bluff_off {s : State} (hb : s.bluff = false) (form : Form) :
    (encodeSelected form s).rnd = s.rnd := by
  rcases encodeSelected_cases form s with ⟨-, e⟩ | ⟨key, t, hk, ⟨-, e⟩ | ⟨blocks, -, e⟩⟩ <;> rw [e]
  · rfl
  all_goals cases selectKey_ok_of_bluff_off hb hk; rfl

/-- The commands that may draw do not draw with bluff off (R61, R140). -/
theorem exec_rnd_of_readOnly {i : Instr} {s t : State} (hi : ReadOnly s i) (h : exec i s = .next t) :
    t.rnd = s.rnd := by
  cases i with
  | nextkey =>
    rcases execNextkey_cases s with ⟨-, e⟩ | ⟨-, -, e⟩ | ⟨-, key, u, hk, e⟩ <;> cases h.symm.trans e
    · rfl
    · rfl
    · cases selectKey_ok_of_bluff_off hi hk; rfl
  | enc =>
    rcases execEnc_cases s with ⟨-, e⟩ | ⟨-, -, e⟩ | ⟨-, -, e⟩ <;> cases h.symm.trans e
    · rfl
    · rfl
    · exact encodeSelected_rnd_of_bluff_off hi .general
  | enca =>
    rcases execEnca_cases s with ⟨-, e⟩ | ⟨-, -, e⟩ | ⟨-, -, -, e⟩ | ⟨-, -, -, e⟩ <;> cases h.symm.trans e
    · rfl
    · rfl
    · rfl
    · exact encodeSelected_rnd_of_bluff_off hi .ascii
  | shuffle => exact hi.elim
  | _ =>
    obtain ⟨-, -, -, -, -, -, -, hrnd, -⟩ := commandsWriteOnlyTheirColumns _ s t h
    exact hrnd nofun nofun nofun nofun

/-- A read-only command changes nothing but the results (R61). -/
theorem exec_readOnly {i : Instr} {s t : State} (hi : ReadOnly s i) (h : exec i s = .next t) :
    t = s.withResults t.res t.out t.status := by
  have hrnd := exec_rnd_of_readOnly hi h
  cases exec_writes h
  case nextkey | enc | enca => cases hrnd; rfl
  case valueof | symbolof | xfwd | xinv | dec | deca => rfl
  all_goals exact hi.elim

/-- Settles O23: `j` changes nothing but the results, and `i` reads none of them. -/
theorem readOnlyCommandsDoNotInterfere : Obligations.ReadOnlyCommandsDoNotInterfere := by
  intro i j s t u l hwf hi hj ht hu
  have after : { t with inp := l } = State.withResults t.res t.out t.status { s with inp := l } :=
    congrArg (fun t : State => { t with inp := l }) (exec_readOnly hj ht)
  rw [after]
  rcases one_result_of_readOnly hi with ⟨hres, hout⟩ | ⟨hout, hres⟩
  · exact ⟨_, exec_withResults_of_writesRes _ _ _ _ hwf hres hu, rfl, fun _ => rfl, fun h => absurd h hout⟩
  · exact ⟨_, exec_withResults_of_writesOut _ _ _ _ hout hu, rfl, fun h => absurd h hres, fun _ => rfl⟩

end Sys2Proof.Machine
end

section
/-! SUPPORT. The decoder row by row of R73: a command's opcode selects that command with the operands in the word's fields,
if they are legal (R78), and any other opcode selects none (R75). The encoder writes and the assembler gives such words. -/

namespace Sys2Proof

open Sys2Proof.Machine Sys2Proof.Claim

/-! ## Words and their fields -/

/-- Every word is the word of its fields (R71). -/
theorem word_fields (w : CmdWord) : word (opField w) (aField w) (bField w) = w := fields_append w

/-- `A[7:6] = 0` says that the byte in `A` is below 64 (R78). -/
theorem aField_lt_64_iff (w : CmdWord) : (aField w).toNat < 64 ↔ w.extractLsb' 14 2 = 0 := by
  rw [← BitVec.toNat_inj]
  simp only [aField, BitVec.extractLsb'_toNat, Nat.shiftRight_eq_div_pow, BitVec.ofNat_eq_ofNat,
    BitVec.toNat_ofNat]
  omega

/-! ## The rows of the decoder -/

/-- The command of the same row of R73 whose operands are read from the bytes in `A` and `B` (R72). -/
def Instr.withOperands (a b : Byte) : Instr → Instr
  | .valueof _ => .valueof a
  | .symbolof _ => .symbolof a
  | .xfwd _ _ => .xfwd a b
  | .xinv _ _ => .xinv a b
  | .setbluff _ => .setbluff (a.getLsbD 0)
  | .setkey _ => .setkey a
  | i => i

/-- The decoder's answer for a selected row: the command, or the rejection of an operand that R78 shuts out. -/
def Instr.checked (i : Instr) : Except DecodeError Instr :=
  if i.wellFormed then .ok i else .error (.valueAbove63 i.operandA)

theorem Instr.checked_of_wellFormed {i : Instr} (h : i.wellFormed = true) : i.checked = .ok i := if_pos h

theorem Instr.checked_rejects_iff (i : Instr) : (∃ e, i.checked = .error e) ↔ i.wellFormed = false := by
  cases h : i.wellFormed <;> simp [Instr.checked, h]

/-- Only `SYMBOLOF` has an illegal operand (R76, R78). -/
theorem Instr.withOperands_illFormed_iff (i : Instr) (a b : Byte) :
    (i.withOperands a b).wellFormed = false ↔ i.opcode = 0x04 ∧ ¬ a.toNat < 64 := by
  cases i <;> simp [Instr.withOperands, Instr.wellFormed, Instr.opcode]

theorem Instr.withOperands_own (i : Instr) : i.withOperands i.operandA i.operandB = i := by
  cases i with
  | setbluff enabled => cases enabled <;> rfl
  | _ => rfl

theorem mnemonicOf_withOperands (i : Instr) (a b : Byte) : mnemonicOf (i.withOperands a b) = mnemonicOf i := by
  cases i <;> rfl

/-- One command of each row of R73. -/
def Instr.rows : List Instr :=
  [.setalpha, .shuffle, .valueof 0, .symbolof 0, .setxform, .xfwd 0 0, .xinv 0 0, .setbluff false, .setkey 0, .nextkey,
    .enc, .dec, .enca, .deca]

/-- The 14 opcodes are those of the commands. -/
theorem mem_opcodes_iff {op : Byte} : op ∈ opcodes ↔ ∃ i : Instr, i.opcode = op := by
  constructor
  · intro h
    obtain ⟨i, -, hi⟩ := List.mem_map.1 (show op ∈ Instr.rows.map Instr.opcode from h)
    exact ⟨i, hi⟩
  · rintro ⟨i, rfl⟩
    cases i <;> simp [opcodes, Instr.opcode]

/-- An opcode of R73 selects its row, whatever else stands in the word. -/
theorem decode_word (i : Instr) (a b : Byte) : decode (word i.opcode a b) = (i.withOperands a b).checked := by
  cases i <;> simp [decode, word, Instr.opcode, Instr.withOperands, Instr.checked, Instr.wellFormed, Instr.operandA]

/-- Any other opcode selects no command (R75). -/
theorem decode_word_of_not_mem {op : Byte} (h : op ∉ opcodes) (a b : Byte) :
    decode (word op a b) = .error (.undefinedOpcode op) := by
  simp only [opcodes, List.mem_cons, List.not_mem_nil, or_false, not_or, ← BitVec.toNat_inj, BitVec.ofNat_eq_ofNat,
    BitVec.toNat_ofNat] at h
  rw [word, decode, opField_append]
  split
  case h_15 => rfl
  all_goals omega

theorem decode_encode {i : Instr} (h : i.wellFormed = true) : decode (encode i) = .ok i := by
  rw [show encode i = word i.opcode i.operandA i.operandB from rfl, decode_word, i.withOperands_own,
    Instr.checked_of_wellFormed h]

/-- Settles O1: the word of a command has its own opcode and operands in its fields. -/
theorem decodeReturnsEncodedCommand : Obligations.DecodeReturnsEncodedCommand :=
  fun _ => decode_encode

/-- Words of one row with the same operands decode alike. -/
theorem decode_word_congr {i : Instr} {a b a' b' : Byte} (h : i.withOperands a b = i.withOperands a' b') :
    decode (word i.opcode a b) = decode (word i.opcode a' b') := by
  rw [decode_word, decode_word, h]

/-- Away from `SYMBOLOF` the bytes in `A` and `B` do not decide whether a word selects a command, nor which mnemonic. -/
theorem decode_word_mnemonic {op a b : Byte} {i : Instr} (hop : op ≠ 0x04) (h : decode (word op a b) = .ok i)
    (a' b' : Byte) : ∃ i', decode (word op a' b') = .ok i' ∧ mnemonicOf i' = mnemonicOf i := by
  by_cases hmem : op ∈ opcodes
  · obtain ⟨row, rfl⟩ := mem_opcodes_iff.1 hmem
    have selected (a b : Byte) : decode (word row.opcode a b) = .ok (row.withOperands a b) := by
      have hwf : (row.withOperands a b).wellFormed ≠ false :=
        fun e => hop ((row.withOperands_illFormed_iff a b).1 e).1
      rw [decode_word, Instr.checked_of_wellFormed (Bool.eq_true_of_not_eq_false hwf)]
    cases (selected a b).symm.trans h
    exact ⟨_, selected a' b', by rw [mnemonicOf_withOperands, mnemonicOf_withOperands]⟩
  · cases (decode_word_of_not_mem hmem a b).symm.trans h

/-- Settles O2: the decoder reads no more operands than `Instr.withOperands`. -/
theorem decodeIgnoresUnusedFields : Obligations.DecodeIgnoresUnusedFields := by
  refine fun op a b a' b' => ⟨fun hop => ?_, fun hop => ?_, fun hop henable => ?_,
    fun hop i h => decode_word_mnemonic hop h a' b'⟩
  · obtain ⟨i, hi, rfl⟩ := List.mem_map.1 (show
      op ∈ List.map Instr.opcode [.setalpha, .shuffle, .setxform, .nextkey, .enc, .dec, .enca, .deca] from hop)
    exact decode_word_congr (by fin_cases hi <;> rfl)
  · obtain ⟨i, hi, rfl⟩ := List.mem_map.1 (show
      op ∈ List.map Instr.opcode [.valueof 0, .symbolof 0, .setkey 0] from hop)
    exact decode_word_congr (by fin_cases hi <;> rfl)
  · subst hop
    exact decode_word_congr (i := .setbluff false) (congrArg Instr.setbluff henable)

/-! ## Illegal words -/

/-- R75 and R78 in the fields of the word. -/
theorem illegalWord_iff (w : CmdWord) :
    IllegalWord w ↔ opField w ∉ opcodes ∨ (opField w = 0x04 ∧ ¬ (aField w).toNat < 64) := by
  rw [aField_lt_64_iff]
  rfl

theorem decode_word_rejects_iff (op a b : Byte) :
    (∃ e, decode (word op a b) = .error e) ↔ op ∉ opcodes ∨ (op = 0x04 ∧ ¬ a.toNat < 64) := by
  by_cases hmem : op ∈ opcodes
  · obtain ⟨i, rfl⟩ := mem_opcodes_iff.1 hmem
    rw [decode_word, Instr.checked_rejects_iff, Instr.withOperands_illFormed_iff]
    exact (or_iff_right (not_not_intro hmem)).symm
  · exact iff_of_true ⟨_, decode_word_of_not_mem hmem a b⟩ (.inl hmem)

theorem decode_rejects_iff (w : CmdWord) : (∃ e, decode w = .error e) ↔ IllegalWord w := by
  rw [illegalWord_iff, ← decode_word_rejects_iff _ _ (bField w), word_fields]

/-- Settles O3: a row of R73 rejects only the operand R78 shuts out, and any other opcode is rejected. -/
theorem illegalWordsAreExactlyThose : Obligations.IllegalWordsAreExactlyThose := decode_rejects_iff

/-! ## The textual form -/

/-- The assembler makes the encoder's word of a mnemonic and its two operands (R79). -/
theorem assemble_own (i : Instr) :
    assemble (mnemonicOf i) [.number i.operandA, .number i.operandB] = some (encode i) := by
  cases i <;> rfl

/-- Settles O5: the assembled word is the encoder's. -/
theorem assembledCommandDecodes : Obligations.AssembledCommandDecodes :=
  fun i h => ⟨encode i, assemble_own i, decode_encode h⟩

/-- Settles O4: the decoder computes each word. -/
theorem sampleWordsDecode : Obligations.SampleWordsDecode :=
  ⟨rfl, rfl, rfl, rfl, rfl, rfl, rfl, rfl, rfl, rfl, rfl⟩

end Sys2Proof
end

section
/-! SUPPORT. A rejected word changes `STATUS` alone (R214), and what an encoder gives is made of symbols (R81, R158, R182). -/

namespace Sys2Proof.Machine

open Sys2Proof.Claim

/-- A step whose request holds a rejected word raises `IllegalCommand` (R75, R78, R214). -/
theorem step_of_rejected {s : State} {q : Request} {rest : List Request} {e : DecodeError} (hp : s.pending = q :: rest)
    (hd : decode q.word = .error e) :
    step s = .next (retire (illegalCommand { s with pending := rest, inp := q.inp, xcand := q.xcand })) := by
  simp only [step, takeRequest, hp, hd]

/-- Settles O9: raising `IllegalCommand` without a result register writes `STATUS` alone. -/
theorem illegalCommandChangesOnlyStatus : Obligations.IllegalCommandChangesOnlyStatus := by
  intro s q rest hp hw
  obtain ⟨e, hd⟩ := (decode_rejects_iff q.word).2 hw
  exact step_of_rejected hp hd

/-- The key an encoder chooses is a symbol of the alphabet (R81, R140). -/
theorem selectKey_symbol {s t : State} {key : Byte} (hs : AlphabetInv s) (hv : s.alphaValid = true)
    (h : selectKey s = .ok (key, t)) : key ∈ s.fwd.toList := by
  rcases selectKey_ok h with ⟨-, hk, rfl, -⟩ | ⟨-, rfl, -⟩
  · exact (hs.isSymbol_iff_mem hv).1 hk
  · exact readFwd_mem _ _

theorem encodeSelected_symbols {s : State} (hs : AlphabetInv s) (hv : s.alphaValid = true) (form : Form) :
    ∀ b ∈ (encodeSelected form s).out, b ∈ s.fwd.toList := by
  rcases encodeSelected_cases form s with ⟨-, e⟩ | ⟨key, t, hk, ⟨-, e⟩ | ⟨blocks, hb, e⟩⟩ <;> rw [e]
  · exact List.forall_mem_nil _
  · exact List.forall_mem_nil _
  · exact List.forall_mem_cons.2 ⟨selectKey_symbol hs hv hk, fun _ => encodeGroups_symbols hb⟩

/-- Settles O54: an encoder's bytes are the key and the blocks' symbols, or there are none. -/
theorem encodedBytesAreSymbols : Obligations.EncodedBytesAreSymbols := by
  rintro i s t (rfl | rfl) hs h
  · rcases execEnc_cases s with ⟨-, e⟩ | ⟨-, -, e⟩ | ⟨-, hv, e⟩ <;> cases h.symm.trans e
    · exact List.forall_mem_nil _
    · exact List.forall_mem_nil _
    · exact encodeSelected_symbols hs hv .general
  · rcases execEnca_cases s with ⟨-, e⟩ | ⟨-, -, e⟩ | ⟨-, -, -, e⟩ | ⟨-, hv, -, e⟩ <;> cases h.symm.trans e
    · exact List.forall_mem_nil _
    · exact List.forall_mem_nil _
    · exact List.forall_mem_nil _
    · exact encodeSelected_symbols hs hv .ascii

end Sys2Proof.Machine
end

section
/-! SUPPORT. The look-ups of the alphabet (R106 to R108) and what `SETALPHA` installs (R101, R102). -/

namespace Sys2Proof.Machine

open Sys2Proof.Claim

/-! ## Look-ups -/

/-- A value's byte in `A` gives the value back (R85, R108). -/
@[simp] theorem lowSix_setWidth (v : Value) : lowSix (v.setWidth 8) = v := by
  apply BitVec.eq_of_toNat_eq
  have := v.isLt
  simp [lowSix]
  omega

/-- Settles O32: the three cases of `execValueof_cases` exclude each other. -/
theorem valueofFollowsRule : Obligations.ValueofFollowsRule := by
  refine ⟨fun a b => decode_word (.valueof 0) a b, fun s a => ?_⟩
  rcases execValueof_cases a s with ⟨hv, e⟩ | ⟨hv, ha, e⟩ | ⟨hv, ha, e⟩
  · exact ⟨fun _ => e, by simp [hv], by simp [hv]⟩
  · rw [← Bool.not_eq_true, isSymbol_iff, not_not] at ha
    exact ⟨by simp [hv], fun _ _ => e, fun _ h => absurd ha h⟩
  · rw [isSymbol_iff] at ha
    exact ⟨by simp [hv], fun _ h => absurd h ha, fun _ _ => e⟩

/-- Settles O33: the cases of `execSymbolof_cases` exclude each other, and the decoder rejects what R78 shuts out. -/
theorem symbolofFollowsRule : Obligations.SymbolofFollowsRule := by
  refine ⟨fun a b => ⟨fun ha => ?_, fun ha => ?_⟩, fun s a => ?_⟩
  · exact (decode_word (.symbolof 0) a b).trans (Instr.checked_of_wellFormed (decide_eq_true ha))
  · exact (decode_word (.symbolof 0) a b).trans (if_neg (by simpa [Instr.withOperands, Instr.wellFormed] using ha))
  · rcases execSymbolof_cases a s with ⟨ha, e⟩ | ⟨ha, hv, e⟩ | ⟨ha, hv, e⟩
    · exact ⟨by omega, by omega, fun _ => e⟩
    · exact ⟨fun _ _ => e, by simp [hv], by omega⟩
    · exact ⟨by simp [hv], fun _ _ => e, by omega⟩

/-- The alphabet invariant makes the tables inverse to each other (R26, R112). -/
theorem AlphabetInv.bijection {s : State} (h : AlphabetInv s) (hv : s.alphaValid = true) : AlphabetBijection s := by
  refine ⟨h.inverse hv, fun b hb => ?_⟩
  obtain ⟨v, rfl⟩ := mem_toList_iff_readFwd.1 hb
  rw [h.inverse hv, lowSix_setWidth]

/-- `SYMBOLOF` of a value answers its entry of `FWD` (R108). -/
theorem exec_symbolof_value {s : State} (hv : s.alphaValid = true) (v : Value) :
    exec (.symbolof (v.setWidth 8)) s = .next (s.succeedRes (readFwd s.fwd v)) := by
  have hlt : (v.setWidth 8).toNat < 64 := by
    have := v.isLt
    simp
    omega
  obtain ⟨-, value, -⟩ := symbolofFollowsRule.2 s (v.setWidth 8)
  rw [value hlt hv, show (v.setWidth 8).extractLsb' 0 6 = v from lowSix_setWidth v]
  rfl

/-- Under the alphabet invariant `VALUEOF` of a symbol answers its value (R107). -/
theorem exec_valueof_symbol {s : State} (h : AlphabetInv s) (hv : s.alphaValid = true) (v : Value) :
    exec (.valueof (readFwd s.fwd v)) s = .next (s.succeedRes (v.setWidth 8)) := by
  obtain ⟨-, -, mapped⟩ := valueofFollowsRule.2 s (readFwd s.fwd v)
  rw [h.inverse hv] at mapped
  exact mapped hv (value_ne_invalidMark v)

/-- Settles O34: each command's result is the operand of which the other gives the first operand back. -/
theorem valueofAndSymbolofAreInverse : Obligations.ValueofAndSymbolofAreInverse := by
  refine fun s h hv => ⟨h.bijection hv, fun v => ?_, fun b hb => ?_⟩
  · exact ⟨_, _, exec_symbolof_value hv v, exec_valueof_symbol (h.congr rfl rfl rfl) hv v, rfl, rfl⟩
  · obtain ⟨v, rfl⟩ := mem_toList_iff_readFwd.1 hb
    exact ⟨_, _, exec_valueof_symbol h hv v, exec_symbolof_value (s := s.succeedRes (v.setWidth 8)) hv v, rfl, rfl⟩

/-! ## SETALPHA -/

/-- Settles O27: the accepted sequences are those of `execSetalpha_cases`, and `INV` is rebuilt from distinct symbols. -/
theorem setalphaFollowsRule : Obligations.SetalphaFollowsRule := by
  refine ⟨fun a b => decode_word .setalpha a b, fun s => ?_⟩
  rcases execSetalpha_cases s with ⟨F, hF, hnodup, e⟩ | ⟨hbad, e⟩
  · have hlen : s.inp.length = 64 := by simp [← hF]
    refine ⟨fun _ _ => ⟨F, rebuildInv F, e, hF, readInv_rebuildInv_readFwd (hF ▸ hnodup), fun b hb => ?_⟩, fun hbad => ?_⟩
    · exact readInv_rebuildInv_foreign (hF ▸ hb)
    · exact absurd hbad (by simp [hlen, hnodup])
  · exact ⟨fun hlen hnodup => absurd hbad (by simp [hlen, hnodup]), fun _ => e⟩

/-- A `SETALPHA` that ends in `OK` has installed its `IN`, with the inverse table (R101). -/
theorem exec_setalpha_ok {s t : State} (h : exec .setalpha s = .next t) (hok : t.status = statusOk) :
    t.alphaValid = true ∧ t.fwd.toList = s.inp ∧ AlphabetInv t := by
  rcases execSetalpha_cases s with ⟨F, hF, hnodup, e⟩ | ⟨-, e⟩ <;> cases h.symm.trans e
  · exact ⟨rfl, hF, alphabetInv_of_rebuilt (hF ▸ hnodup) rfl rfl⟩
  · exact absurd hok (errorCode_range .invalidAlphabet).1

/-- Settles O28: the rebuilt `INV` marks every byte outside the new alphabet, and `VALUEOF` reads that mark. -/
theorem oldSymbolsAreUnmapped : Obligations.OldSymbolsAreUnmapped := by
  intro s t b h hok hb
  obtain ⟨hv, hF, hinv⟩ := exec_setalpha_ok h hok
  obtain ⟨-, unmapped, -⟩ := valueofFollowsRule.2 t b
  exact unmapped hv (hinv.foreign hv b (hF ▸ hb))

end Sys2Proof.Machine
end

section
/-! SUPPORT. The shuffle (R103, R104): its loop brings the entries where the drawn swaps send them, and some answers bring them
into any order. -/

namespace Sys2Proof.Machine

open Sys2Proof.Claim

/-! ## Answers and swaps -/

/-- Answers for the draws of the loop from `i`: `i` of them, the one at `m` in the range of `draw(i + 1 - m)` (R104). -/
def DrawsFit (i : Nat) (draws : List Nat) : Prop := draws.length = i ∧ ∀ m, m < i → draws.getD m 0 < i + 1 - m

theorem drawsFit_nil : DrawsFit 0 [] := ⟨rfl, fun _ hm => absurd hm (Nat.not_lt_zero _)⟩

theorem drawsFit_cons {i j : Nat} {draws : List Nat} :
    DrawsFit (i + 1) (j :: draws) ↔ j < i + 2 ∧ DrawsFit i draws := by
  simp only [DrawsFit, List.length_cons, Nat.add_right_cancel_iff]
  constructor
  · rintro ⟨hlen, h⟩
    refine ⟨h 0 i.succ_pos, hlen, fun m hm => ?_⟩
    simpa using h (m + 1) (Nat.succ_lt_succ hm)
  · rintro ⟨hj, hlen, h⟩
    refine ⟨hlen, fun m hm => ?_⟩
    cases m with
    | zero => exact hj
    | succ m => simpa using h m (Nat.lt_of_succ_lt_succ hm)

/-- The swaps of the loop from `i` (R104): where each entry of its table comes from. -/
def loopOrder (i : Nat) (draws : List Nat) : Equiv.Perm (Fin 64) :=
  ((List.range i).map fun m => swapAt (i - m) (draws.getD m 0)).prod

theorem shuffleOrder_eq_loopOrder (draws : List Nat) : shuffleOrder draws = loopOrder 63 draws := rfl

theorem loopOrder_zero (draws : List Nat) : loopOrder 0 draws = 1 := rfl

theorem loopOrder_cons (i j : Nat) (draws : List Nat) :
    loopOrder (i + 1) (j :: draws) = swapAt (i + 1) j * loopOrder i draws := by
  simp [loopOrder, List.range_succ_eq_map, Function.comp_def]

/-- A swap of the table, entry by entry. -/
theorem getElem_swapEntries_eq_swapAt (F : Vector Byte 64) {i j : Nat} (hi : i < 64) (hj : j < 64) (x : Fin 64) :
    (swapEntries F i j)[x] = F[swapAt i j x] := by
  have hx : ∀ {k : Nat}, k < 64 → (x = Fin.ofNat 64 k ↔ x.val = k) := fun hk => by
    rw [Fin.ext_iff, Fin.val_ofNat, Nat.mod_eq_of_lt hk]
  rw [Fin.getElem_fin, getElem_swapEntries F hi hj x.isLt]
  simp only [swapAt, Equiv.swap_apply_def, hx hi, hx hj]
  split_ifs <;> simp [Nat.mod_eq_of_lt hi, Nat.mod_eq_of_lt hj]

/-- The loop with supplied answers: it applies their swaps and leaves the answers after them (R104). -/
theorem shuffleFrom_supplied {i : Nat} (hi : i < 64) {draws : List Nat} (h : DrawsFit i draws) (F : Vector Byte 64)
    (rest : List Nat) (k : Nat) :
    (∀ x : Fin 64, (shuffleFrom i F ⟨draws ++ rest, k⟩).1[x] = F[loopOrder i draws x]) ∧
      (shuffleFrom i F ⟨draws ++ rest, k⟩).2 = ⟨rest, k + i⟩ := by
  induction i generalizing draws F k with
  | zero =>
    cases List.eq_nil_of_length_eq_zero h.1
    exact ⟨fun _ => rfl, rfl⟩
  | succ i ih =>
    obtain ⟨j, draws, rfl⟩ := List.exists_cons_of_length_eq_add_one h.1
    obtain ⟨hj, h⟩ := drawsFit_cons.1 h
    obtain ⟨entries, source⟩ := ih (by omega) h (swapEntries F (i + 1) j) (k + 1)
    rw [List.cons_append, shuffleFrom, draw_supplied hj]
    refine ⟨fun x => ?_, by rw [source, Nat.add_right_comm, Nat.add_assoc]⟩
    rw [entries, getElem_swapEntries_eq_swapAt F hi (by omega)]
    simp only [loopOrder_cons, Equiv.Perm.mul_apply]

/-! ## Every order -/

/-- A permutation that moves nothing above `i` is the order of some answers of the loop from `i`: each draw picks the entry
that stays at its index (R104). -/
theorem exists_draws_loopOrder {i : Nat} (hi : i < 64) {σ : Equiv.Perm (Fin 64)} (hσ : ∀ x : Fin 64, i < x.val → σ x = x) :
    ∃ draws, DrawsFit i draws ∧ loopOrder i draws = σ := by
  induction i generalizing σ with
  | zero =>
    have fixed (x : Fin 64) (hx : x ≠ 0) : σ x = x := hσ x (Fin.pos_iff_ne_zero.2 hx)
    have fixed_zero : σ 0 = 0 := by
      by_contra h
      exact h (σ.injective (fixed _ h))
    refine ⟨[], drawsFit_nil, (loopOrder_zero []).trans (Equiv.ext fun x => ?_)⟩
    by_cases hx : x = 0
    · rw [hx, fixed_zero, Equiv.Perm.one_apply]
    · rw [fixed x hx, Equiv.Perm.one_apply]
  | succ i ih =>
    obtain ⟨top, htop⟩ : ∃ top : Fin 64, top.val = i + 1 := ⟨⟨i + 1, hi⟩, rfl⟩
    have hj : (σ top).val < i + 2 := by
      by_contra h
      have := congrArg Fin.val (σ.injective (hσ (σ top) (by omega)))
      omega
    have hswap : swapAt (i + 1) (σ top).val = Equiv.swap top (σ top) := by
      simp [swapAt, ← htop]
    obtain ⟨draws, hd, e⟩ := ih (by omega) (σ := Equiv.swap top (σ top) * σ) fun x hx => by
      rw [Equiv.Perm.mul_apply]
      by_cases hxt : x = top
      · rw [hxt, Equiv.swap_apply_right]
      · have hx' : σ x = x := hσ x (by have := Fin.val_ne_of_ne hxt; omega)
        rw [hx', Equiv.swap_apply_of_ne_of_ne hxt fun h => hxt (σ.injective (hx'.trans h))]
    exact ⟨(σ top).val :: draws, drawsFit_cons.2 ⟨hj, hd⟩, by rw [loopOrder_cons, e, hswap, Equiv.swap_mul_self_mul]⟩

/-- A permuted table is the table read through a permutation of its indices. -/
theorem exists_perm_of_toList_perm {F G : Vector Byte 64} (h : F.toList.Perm G.toList) :
    ∃ σ : Equiv.Perm (Fin 64), ∀ x : Fin 64, F[x] = G[σ x] := by
  have hF : F.toList.length = 64 := by simp
  have hG : G.toList.length = 64 := by simp
  refine ⟨(finCongr hF).symm.trans (Equiv.trans ⟨h.idxBij, h.symm.idxBij, h.idxBij_symm_leftInverse_idxBij,
    h.idxBij_symm_rightInverse_idxBij⟩ (finCongr hG)), fun x => ?_⟩
  exact (h.getElem_idxBij_eq_getElem (x.cast hF.symm)).symm

/-! ## SHUFFLE -/

/-- `SHUFFLE` with an alphabet writes the loop's table, its inverse table and the random source (R104). -/
theorem exec_shuffle {s : State} (hv : s.alphaValid = true) : exec .shuffle s = .next { s with
    fwd := (shuffleFrom 63 s.fwd s.rnd).1, inv := rebuildInv (shuffleFrom 63 s.fwd s.rnd).1,
    rnd := (shuffleFrom 63 s.fwd s.rnd).2, status := statusOk } := by
  rcases execShuffle_cases s with ⟨-, e⟩ | ⟨hv', -⟩
  · exact e
  · exact absurd hv (Bool.eq_false_iff.1 hv')

/-- Settles O30: the loop permutes the table and makes 63 draws from any random source. -/
theorem shufflePermutesSymbols : Obligations.ShufflePermutesSymbols :=
  fun s hv => ⟨_, _, _, exec_shuffle hv, shuffleFrom_perm 63 s.fwd s.rnd, shuffleFrom_drawn 63 s.fwd s.rnd,
    shuffleFrom_answers 63 s.fwd s.rnd⟩

/-- Settles O29: the loop applies the swaps of the supplied answers, and `INV` is rebuilt from the permuted symbols. -/
theorem shuffleAppliesDrawnSwaps : Obligations.ShuffleAppliesDrawnSwaps := by
  refine ⟨fun a b => decode_word .shuffle a b, fun s hv => ?_, fun s draws rest hv hnodup hlen hdraws hanswers => ?_⟩
  · rcases execShuffle_cases s with ⟨hv', -⟩ | ⟨-, e⟩
    · exact absurd hv' (Bool.eq_false_iff.1 hv)
    · exact e
  · obtain ⟨entries, source⟩ := shuffleFrom_supplied (by omega) ⟨hlen, hdraws⟩ s.fwd rest s.rnd.drawn
    simp only [← hanswers, ← shuffleOrder_eq_loopOrder] at entries source
    have hperm := shuffleFrom_perm 63 s.fwd s.rnd
    exact ⟨_, _, source ▸ exec_shuffle hv, entries, readInv_rebuildInv_readFwd (hperm.nodup_iff.2 hnodup),
      fun b hb => readInv_rebuildInv_foreign (mt hperm.mem_iff.1 hb)⟩

/-- Settles O31: the answers whose order is the permutation from the installed symbols to the wanted ones. -/
theorem shuffleReachesEveryOrder : Obligations.ShuffleReachesEveryOrder := by
  intro s F hv hperm
  obtain ⟨σ, hσ⟩ := exists_perm_of_toList_perm hperm
  obtain ⟨draws, hdraws, rfl⟩ := exists_draws_loopOrder (i := 63) (by omega) (σ := σ) fun x hx => by omega
  obtain ⟨entries, -⟩ := shuffleFrom_supplied (by omega) hdraws s.fwd [] s.rnd.drawn
  rw [List.append_nil] at entries
  have hF : (shuffleFrom 63 s.fwd ⟨draws, s.rnd.drawn⟩).1 = F :=
    Vector.ext fun n hn => (entries ⟨n, hn⟩).trans (hσ ⟨n, hn⟩).symm
  exact ⟨draws, hdraws.1, hdraws.2, _, exec_shuffle (s := { s with rnd := ⟨draws, s.rnd.drawn⟩ }) hv, hF, rfl⟩

/-! ## The fixed key -/

/-- Under the alphabet invariant the mapped bytes are the entries of `FWD` (R26). -/
theorem AlphabetInv.mapped_iff_mem {s : State} (h : AlphabetInv s) (hv : s.alphaValid = true) {b : Byte} :
    readInv s.inv b ≠ invalidMark ↔ b ∈ s.fwd.toList :=
  isSymbol_iff.symm.trans (h.isSymbol_iff_mem hv)

/-- Settles O35: under the alphabet invariant before and after, the mapped bytes are the entries of `FWD`; the shuffle
permutes them, and `SETALPHA` takes them from `IN`. -/
theorem fixedKeyAcrossAlphabetChanges : Obligations.FixedKeyAcrossAlphabetChanges := by
  refine fun s t hs hv => ⟨fun h => ?_, fun h hok => ?_⟩
  · have ht := exec_keeps_alphabetInv h hs
    have hperm := shuffleFrom_perm 63 s.fwd s.rnd
    cases h.symm.trans (exec_shuffle hv)
    exact ⟨rfl, (ht.mapped_iff_mem hv).trans (hperm.mem_iff.trans (hs.mapped_iff_mem hv).symm)⟩
  · obtain ⟨htv, hF, ht⟩ := exec_setalpha_ok h hok
    obtain ⟨-, -, -, -, hkey, -⟩ := commandsWriteOnlyTheirColumns _ _ _ h
    rw [← hkey nofun, ← hF]
    exact ⟨rfl, ht.mapped_iff_mem htv⟩

end Sys2Proof.Machine
end

section
/-! SUPPORT. The transform commands (41_bytexform.md): the check of `SETXFORM` and its two examples (R122, R124, R128), what
`XFWD` and `XINV` answer (R126, R127), the default transform (R121), and a step's hold on the installed transform (R38). -/

namespace Sys2Proof.Machine

open Sys2Proof.Claim

/-- Settles O15: `SETXFORM` installs a candidate only after the check, and no other command writes `XFORM` or the key. -/
theorem stepKeepsTransformAdmitted : Obligations.StepKeepsTransformAdmitted :=
  fun _ _ hs h => step_keeps_xformAdmitted h hs

/-! ## SETXFORM -/

/-- Settles O36: the two cases of `execSetxform_cases` exclude each other, and only the first ends in `OK`. -/
theorem setxformFollowsRule : Obligations.SetxformFollowsRule := by
  refine ⟨fun a b => decode_word .setxform a b, fun s => ?_⟩
  rcases execSetxform_cases s with ⟨hx, e⟩ | ⟨hx, e⟩
  · exact ⟨fun _ => e, fun ⟨b, hb, hne⟩ => absurd (hx b hb) hne, _, e, iff_of_true rfl hx⟩
  · exact ⟨fun h => absurd h hx, fun _ => e, _, e, iff_of_false (errorCode_range .invalidTransform).1 hx⟩

/-- Twice a key is 0 only for the keys 0x00 and 0x80, which R128 shuts out. -/
theorem key_add_self_ne_zero {k : Byte} (hk : k.toNat % 128 ≠ 0) : k + k ≠ 0 := by
  intro h
  have hsum : (k.toNat + k.toNat) % 256 = 0 := by simpa using congrArg BitVec.toNat h
  omega

/-- Settles O37: the pair sends the byte 0 to twice the key. -/
theorem unmatchedAdditionIsRejected : Obligations.UnmatchedAdditionIsRejected := by
  intro s hk hadd
  obtain ⟨-, rejected, -⟩ := setxformFollowsRule.2 s
  refine rejected ⟨0, by decide, ?_⟩
  rw [(hadd _ _).1, (hadd _ _).2, zero_add]
  exact key_add_self_ne_zero hk

/-- Settles O38: on 0..127 subtraction modulo 128 undoes addition modulo 128, at any key. -/
theorem matchedAdditionIsAccepted : Obligations.MatchedAdditionIsAccepted := by
  intro s hadd
  obtain ⟨accepted, -⟩ := setxformFollowsRule.2 s
  refine accepted fun b hb => ?_
  have hkey : s.params.probeKey.toNat < 256 := s.params.probeKey.isLt
  have hsum : (b.toNat + s.params.probeKey.toNat) % 128 < 256 := by omega
  have undone : ((b.toNat + s.params.probeKey.toNat) % 128 + 256 - s.params.probeKey.toNat) % 128 = b.toNat := by omega
  rw [(hadd _ _).1, (hadd _ _).2, BitVec.toNat_ofNat, Nat.mod_eq_of_lt hsum, undone, BitVec.ofNat_toNat,
    BitVec.setWidth_eq]

/-! ## XFWD and XINV -/

/-- Settles O39: neither command looks at `ALPHA_VALID` or at the operands' range. -/
theorem xfwdAndXinvFollowRules : Obligations.XfwdAndXinvFollowRules :=
  fun _ a b => ⟨decode_word (.xfwd 0 0) a b, decode_word (.xinv 0 0) a b, rfl, rfl⟩

/-- Settles O40: the default transform is xor with the key, which undoes itself and sets no bit that neither argument has. -/
theorem defaultTransformUndoesItself : Obligations.DefaultTransformUndoesItself := by
  intro s t b k hx h
  obtain ⟨-, -, hfwd, -⟩ := xfwdAndXinvFollowRules s b k
  cases h.symm.trans hfwd
  obtain ⟨-, -, -, hinv⟩ := xfwdAndXinvFollowRules { s with res := s.xform.T b k, status := 0 } (s.xform.T b k) k
  rw [hinv, hx, default_T, default_I, BitVec.xor_assoc, BitVec.xor_self, BitVec.xor_zero]
  refine ⟨rfl, fun hb hk => ?_⟩
  rw [BitVec.toNat_xor]
  exact Nat.xor_lt_two_pow (n := 7) hb hk

end Sys2Proof.Machine
end

section
/-! SUPPORT. The codecs use the transform at first arguments in 0..127 only (R125): a codec command commutes with setting a
transform that agrees there with the installed one. -/

namespace Sys2Proof.Machine

open Sys2Proof.Claim

/-! ## The engine -/

/-- The pieces of a list hold the list's bytes. -/
theorem mem_of_mem_pieces {n : Nat} (hn : 0 < n) {l g : List Byte} (hg : g ∈ pieces n l) {b : Byte} (hb : b ∈ g) :
    b ∈ l := by
  induction l using pieces_induction hn with
  | nil => cases hg
  | piece l hl ih =>
    rw [pieces_of_ne_nil hn hl] at hg
    rcases List.mem_cons.1 hg with rfl | hg
    · exact List.mem_of_mem_take hb
    · exact List.mem_of_mem_drop (ih hg)

/-- An encoder uses `T` at first arguments in 0..127 only, on an input the form accepts. -/
theorem encodeMessage_congr {form : Form} {F : Vector Byte 64} {T T' : Byte → Byte → Byte} {key : Byte} {l : List Byte}
    (hT : ∀ x : Byte, x.toNat < 128 → T x key = T' x key) (hform : form = .general ∨ ∀ b ∈ l, signBit b = false) :
    encodeMessage form F T key l = encodeMessage form F T' key l := by
  rw [encodeMessage, encodeMessage, encodeGroups_congr hT]
  exact hform.imp_right fun h g hg b hb => h b (mem_of_mem_pieces (slots_pos form) hg hb)

section

variable {form : Form} {N : Vector Byte 256} {I I' : Byte → Byte → Byte} {key : Byte}

theorem decodeSlots_congr (hI : ∀ x : Byte, x.toNat < 128 → I x key = I' x key) {mark : Byte} {k : Nat} {l : List Byte}
    (hk : k + l.length ≤ 8) (hl : ∀ b ∈ l, (readInv N b).toNat < 64) :
    decodeSlots form N I key mark k l = decodeSlots form N I' key mark k l := by
  induction l generalizing k with
  | nil => rfl
  | cons b l ih =>
    rw [List.length_cons] at hk
    obtain ⟨hb, hl⟩ := List.forall_mem_cons.1 hl
    rw [decodeSlots, decodeSlots, decodeSlot_congr hI (by omega) hb, ih (by omega) hl]

theorem decodeBlock_congr (hI : ∀ x : Byte, x.toNat < 128 → I x key = I' x key) {block : List Byte}
    (hlen : block.length ≤ slots form + 1) (hl : ∀ b ∈ block, (readInv N b).toNat < 64) :
    decodeBlock form N I key block = decodeBlock form N I' key block := by
  cases block with
  | nil => rfl
  | cons m payload =>
    have hslots : slots form ≤ 8 := by cases form <;> decide
    rw [List.length_cons] at hlen
    exact decodeSlots_congr hI (by omega) (List.forall_mem_cons.1 hl).2

theorem decodeBlocks_congr (hI : ∀ x : Byte, x.toNat < 128 → I x key = I' x key) {body : List Byte}
    (hl : ∀ b ∈ body, (readInv N b).toNat < 64) :
    decodeBlocks form N I key (pieces (slots form + 1) body) =
      decodeBlocks form N I' key (pieces (slots form + 1) body) := by
  induction body using pieces_induction (Nat.succ_pos (slots form)) with
  | nil => rfl
  | piece body hb ih =>
    rw [decodeBlocks_pieces hb, decodeBlocks_pieces hb, ih fun b hb => hl b (List.mem_of_mem_drop hb),
      decodeBlock_congr hI (List.length_take_le _ _) fun b hb => hl b (List.mem_of_mem_take hb)]

/-- A decoder uses `I` at first arguments in 0..127 only, on a text whose bytes stand for values. -/
theorem decodeMessage_congr (hI : ∀ x k : Byte, x.toNat < 128 → I x k = I' x k) {text : List Byte}
    (hl : ∀ b ∈ text, (readInv N b).toNat < 64) : decodeMessage form N I text = decodeMessage form N I' text := by
  cases text with
  | nil => rfl
  | cons key body => exact decodeBlocks_congr (hI · key) (List.forall_mem_cons.1 hl).2

end

/-! ## Setting the transform -/

/-- The transforms agree at every first argument in 0..127. -/
def Xform.AgreeBelow128 (x y : Xform) : Prop :=
  ∀ b k : Byte, b.toNat < 128 → x.T b k = y.T b k ∧ x.I b k = y.I b k

/-- The state with another transform installed. -/
def State.withXform (x : Xform) (s : State) : State := { s with xform := x }

/-- The value of a symbol is below 64 (R24, R26). -/
theorem AlphabetInv.readInv_lt {s : State} (h : AlphabetInv s) (hv : s.alphaValid = true) {b : Byte}
    (hb : isSymbol s.inv b = true) : (readInv s.inv b).toNat < 64 := by
  obtain ⟨v, rfl⟩ := mem_toList_iff_readFwd.1 ((h.isSymbol_iff_mem hv).1 hb)
  rw [h.inverse hv, BitVec.toNat_setWidth]
  exact (Nat.mod_le _ _).trans_lt v.isLt

section

variable (x : Xform) (s : State)

@[simp] theorem withXform_inv : (s.withXform x).inv = s.inv := rfl
@[simp] theorem withXform_alphaValid : (s.withXform x).alphaValid = s.alphaValid := rfl
@[simp] theorem withXform_xform : (s.withXform x).xform = x := rfl
@[simp] theorem withXform_inp : (s.withXform x).inp = s.inp := rfl
@[simp] theorem withXform_fwd : (s.withXform x).fwd = s.fwd := rfl

@[simp] theorem succeedOut_withXform (l : List Byte) :
    (s.withXform x).succeedOut l = (s.succeedOut l).withXform x := rfl

@[simp] theorem raise_withXform (k : ErrorKind) (r : ResultReg) :
    raise k r (s.withXform x) = (raise k r s).withXform x := by
  cases r <;> rfl

/-- Key selection uses no transform. -/
@[simp] theorem selectKey_withXform :
    selectKey (s.withXform x) = (selectKey s).map fun p => (p.1, p.2.withXform x) := by
  rcases selectKey_cases s with ⟨hb, e⟩ | ⟨hb, hk, e⟩ | ⟨hb, hk, e⟩ <;> rw [e]
  case inl => simp [selectKey, hb, Except.map, State.withXform]
  all_goals simp [selectKey, hb, hk, Except.map, State.withXform]

end

section

variable {x : Xform} {s : State} (hx : x.AgreeBelow128 s.xform)
include hx

theorem encodeSelected_withXform {form : Form} (hform : form = .general ∨ ∀ b ∈ s.inp, signBit b = false) :
    encodeSelected form (s.withXform x) = (encodeSelected form s).withXform x := by
  rw [encodeSelected, encodeSelected, selectKey_withXform]
  cases hk : selectKey s with
  | error k => exact raise_withXform x s k .out
  | ok p =>
    obtain ⟨key, t⟩ := p
    obtain ⟨r, rfl⟩ := selectKey_frame hk
    have hmessage : encodeMessage form s.fwd x.T key s.inp = encodeMessage form s.fwd s.xform.T key s.inp :=
      encodeMessage_congr (fun b hb => (hx b key hb).1) hform
    simp only [Except.map, withXform_fwd, withXform_xform, withXform_inp, hmessage]
    cases encodeMessage form s.fwd s.xform.T key s.inp <;> rfl

theorem decodeChecked_withXform (hs : AlphabetInv s) (form : Form) :
    decodeChecked form (s.withXform x) = (decodeChecked form s).withXform x := by
  simp only [decodeChecked, withXform_alphaValid, withXform_inp, withXform_inv, withXform_xform, raise_withXform,
    succeedOut_withXform, apply_ite (State.withXform x)]
  -- the two sides differ in the message alone, which is decoded from symbols
  refine ite_congr rfl (fun _ => rfl) fun hvalid => ite_congr rfl (fun _ => rfl) fun _ =>
    ite_congr rfl (fun hall => ?_) fun _ => rfl
  have hv : s.alphaValid = true := by simpa using hvalid
  rw [decodeMessage_congr (fun b k hb => (hx b k hb).2) fun b hb => hs.readInv_lt hv (List.all_eq_true.1 hall b hb)]

/-- A codec command commutes with setting a transform that agrees with the installed one on 0..127. -/
theorem exec_withXform {i : Instr} {t : State} (hw : WritesOut i) (hs : AlphabetInv s) (h : exec i s = .next t) :
    exec i (s.withXform x) = .next (t.withXform x) := by
  -- `h` names the next state of each meaning, which leaves an equation of two states
  cases i <;> cases h <;> refine congrArg Host.Outcome.next ?_
  case enc => simp [encodeSelected_withXform hx (.inl rfl), apply_ite (State.withXform x)]
  case dec | deca => simp [decodeChecked_withXform hx hs, apply_ite (State.withXform x)]
  case enca =>
    by_cases hsign : ∀ b ∈ s.inp, signBit b = false
    · simp [encodeSelected_withXform hx (.inr hsign), apply_ite (State.withXform x)]
    · have hany : s.inp.any signBit = true := by simpa using hsign
      simp [hany, apply_ite (State.withXform x)]
  all_goals exact hw.elim

end

/-- Settles O56: the codecs commute with setting the other transform. -/
theorem codecsUseTransformOn0To127 : Obligations.CodecsUseTransformOn0To127 :=
  fun _ _ _ _ hw hs hx h => exec_withXform hx hw hs h

end Sys2Proof.Machine
end

section
/-! SUPPORT. The key selector (42_key_selector.md): what its commands do (R136, R138, R140), that the decoders do not see it
(R142), and the messages an encoder gives in bluff mode, which decode to their input (R144, R166). -/

namespace Sys2Proof.Machine

open Sys2Proof.Claim

/-! ## SETBLUFF and SETKEY -/

/-- Settles O42: `SETBLUFF` has no check, and takes its operand from `A[0]`. -/
theorem setbluffFollowsRule : Obligations.SetbluffFollowsRule :=
  ⟨fun a b => decode_word (.setbluff false) a b, fun _ _ => rfl⟩

/-- Settles O43: the three cases of `execSetkey_cases` exclude each other. -/
theorem setkeyFollowsRule : Obligations.SetkeyFollowsRule := by
  refine ⟨fun a b => decode_word (.setkey 0) a b, fun s a => ?_⟩
  rcases execSetkey_cases a s with ⟨hv, e⟩ | ⟨hv, ha, e⟩ | ⟨hv, ha, e⟩
  · exact ⟨fun _ => e, by simp [hv], by simp [hv]⟩
  · rw [← Bool.not_eq_true, isSymbol_iff, not_not] at ha
    exact ⟨by simp [hv], fun _ _ => e, fun _ h => absurd ha h⟩
  · rw [isSymbol_iff] at ha
    exact ⟨by simp [hv], fun _ h => absurd h ha, fun _ _ => e⟩

/-! ## Key selection -/

/-- A draw is one draw in the sense of R36. -/
theorem draw_oneDraw {n : Nat} (hn : 0 < n) (r : RandomSource) : OneDraw n r (draw n r).1 (draw n r).2 := by
  refine ⟨draw_lt hn r, draw_drawn n r, draw_answers n r, fun a rest ha hlt => ?_⟩
  obtain ⟨answers, drawn⟩ := r
  cases ha
  rw [draw_supplied hlt]

/-- Key selection fails exactly with bluff off and an unmapped fixed key (R140). -/
theorem selectKey_invalidKey_iff {s : State} :
    selectKey s = .error .invalidKey ↔ s.bluff = false ∧ readInv s.inv s.fixedKey = invalidMark := by
  rcases selectKey_cases s with ⟨hb, e⟩ | ⟨hb, hk, e⟩ | ⟨hb, hk, e⟩ <;> rw [e, hb]
  · simp
  · simp [isSymbol_iff.1 hk]
  · rw [← Bool.not_eq_true, isSymbol_iff, not_not] at hk
    simp [hk]

/-- The key of a successful selection is the one R140 chooses, and the random source is the one after it. -/
theorem keyChosen_of_selectKey {s t : State} {key : Byte} (h : selectKey s = .ok (key, t)) : KeyChosen s key t.rnd := by
  rcases selectKey_ok h with ⟨hb, -, rfl, rfl⟩ | ⟨hb, rfl, rfl⟩
  · exact .inl ⟨hb, rfl, rfl⟩
  · have hdraw := draw_oneDraw (n := 64) (by decide) s.rnd
    refine .inr ⟨hb, _, rfl, ?_⟩
    rwa [BitVec.toNat_ofNat, Nat.mod_eq_of_lt hdraw.1]

/-- In bluff mode a supplied answer `j` makes `FWD[j]` the key, and key selection consumes that answer alone (R140). -/
theorem selectKey_supplied {s : State} (hb : s.bluff = true) {j : Value} {rest : List Nat}
    (hj : s.rnd.answers = j.toNat :: rest) :
    selectKey s = .ok (readFwd s.fwd j, { s with rnd := ⟨rest, s.rnd.drawn + 1⟩ }) := by
  have hdraw : draw 64 s.rnd = (j.toNat, ⟨rest, s.rnd.drawn + 1⟩) := by
    rw [← draw_supplied j.isLt rest s.rnd.drawn, ← hj]
  simp [selectKey, hb, hdraw]

/-- Settles O44: the cases of `execNextkey_cases` exclude each other, by when key selection fails. -/
theorem nextkeyFollowsRule : Obligations.NextkeyFollowsRule := by
  refine ⟨fun a b => decode_word .nextkey a b, fun s => ?_⟩
  rcases execNextkey_cases s with ⟨hv, e⟩ | ⟨hv, hk, e⟩ | ⟨hv, key, t, hk, e⟩
  · exact ⟨fun _ => e, by simp [hv], by simp [hv]⟩
  · obtain ⟨hb, hunmapped⟩ := selectKey_invalidKey_iff.1 hk
    refine ⟨by simp [hv], fun _ _ _ => e, fun _ hkey => ?_⟩
    exact hkey.elim (by simp [hb]) (absurd hunmapped)
  · refine ⟨by simp [hv], fun _ hb hunmapped => ?_, fun _ _ => ?_⟩
    · cases hk.symm.trans (selectKey_invalidKey_iff.2 ⟨hb, hunmapped⟩)
    · have hchosen := keyChosen_of_selectKey hk
      obtain ⟨r, rfl⟩ := selectKey_frame hk
      exact ⟨key, r, hchosen, e⟩

/-- Settles O45: `NEXTKEY` ends in `OK` only with the key of a selection, which is a symbol. -/
theorem chosenKeyIsASymbol : Obligations.ChosenKeyIsASymbol := by
  intro s t hs h hok
  rcases execNextkey_cases s with ⟨-, e⟩ | ⟨-, -, e⟩ | ⟨hv, key, u, hk, e⟩ <;> cases h.symm.trans e
  · exact absurd hok (errorCode_range .invalidAlphabet).1
  · exact absurd hok (errorCode_range .invalidKey).1
  · have hsymbol := selectKey_symbol hs hv hk
    obtain ⟨r, rfl⟩ := selectKey_frame hk
    exact hsymbol

/-! ## The decoders -/

/-- The state with another content of `BLUFF` and `FIXED_KEY`. -/
def State.withKeySelector (e : Bool) (k : Byte) (s : State) : State := { s with bluff := e, fixedKey := k }

section

variable (e : Bool) (k : Byte) (s : State)

@[simp] theorem withKeySelector_inv : (s.withKeySelector e k).inv = s.inv := rfl
@[simp] theorem withKeySelector_alphaValid : (s.withKeySelector e k).alphaValid = s.alphaValid := rfl
@[simp] theorem withKeySelector_xform : (s.withKeySelector e k).xform = s.xform := rfl
@[simp] theorem withKeySelector_inp : (s.withKeySelector e k).inp = s.inp := rfl

@[simp] theorem succeedOut_withKeySelector (l : List Byte) :
    (s.withKeySelector e k).succeedOut l = (s.succeedOut l).withKeySelector e k := rfl

@[simp] theorem raise_out_withKeySelector (kind : ErrorKind) :
    raise kind .out (s.withKeySelector e k) = (raise kind .out s).withKeySelector e k := rfl

@[simp] theorem decodeChecked_withKeySelector (form : Form) :
    decodeChecked form (s.withKeySelector e k) = (decodeChecked form s).withKeySelector e k := by
  simp [decodeChecked, apply_ite (State.withKeySelector e k)]

end

/-- A decoder commutes with setting `BLUFF` and `FIXED_KEY`. -/
theorem exec_withKeySelector {i : Instr} {s t : State} (e : Bool) (k : Byte) (hi : i = .dec ∨ i = .deca)
    (h : exec i s = .next t) : exec i (s.withKeySelector e k) = .next (t.withKeySelector e k) := by
  rcases hi with rfl | rfl <;> cases h <;>
    exact congrArg Host.Outcome.next (by simp [apply_ite (State.withKeySelector e k)])

/-- Settles O58: the decoders commute with setting `BLUFF` and `FIXED_KEY`. -/
theorem decodersIgnoreKeySelector : Obligations.DecodersIgnoreKeySelector :=
  fun _ _ _ e k hi h => exec_withKeySelector e k hi h

/-! ## Messages and their decoding -/

/-- No group escapes under a key at which the transform stays below 128, on an input the form accepts (R156, R180). -/
theorem exists_encodeGroups {form : Form} {F : Vector Byte 64} {T : Byte → Byte → Byte} {key : Byte} {l : List Byte}
    (hT : ∀ b : Byte, b.toNat < 128 → (T b key).toNat < 128) (hform : form = .general ∨ ∀ b ∈ l, signBit b = false) :
    ∃ blocks, encodeGroups form F T key (pieces (slots form) l) = some blocks := by
  rw [← Option.ne_none_iff_exists', ne_eq, encodeGroups_none]
  rintro ⟨p, hp, hescape⟩
  have hslots : slots form ≤ 8 := by cases form <;> decide
  have hslot : p % slots form < 8 := (Nat.mod_lt p (slots_pos form)).trans_le hslots
  have hfold : signBit (foldSign (signFlag form l[p]) l[p]) = false :=
    signBit_fold form (hform.imp_right fun hl => hl _ (List.getElem_mem hp))
  have hstays : signBit (transformed form T key (p % slots form) l[p]) = false := by
    rw [transformed, signBit_xor_slot _ hslot, signBit_eq_false_iff]
    exact hT _ (signBit_eq_false_iff.1 hfold)
  exact Bool.false_ne_true (hstays.symm.trans hescape)

/-- A decoder gives back the input of the message in `IN`, if its key is a symbol at which the transform undoes itself
(R166, R190). -/
theorem decodeChecked_of_encoded {form : Form} {u : State} {key : Byte} {l blocks : List Byte} (hu : AlphabetInv u)
    (hv : u.alphaValid = true) (hinp : u.inp = key :: blocks) (hkey : key ∈ u.fwd.toList)
    (hx : UndoesOnDomain u.xform key) (hform : form = .general ∨ ∀ b ∈ l, signBit b = false)
    (h : encodeGroups form u.fwd u.xform.T key (pieces (slots form) l) = some blocks) :
    decodeChecked form u = u.succeedOut l := by
  have hshape : malformed form (key :: blocks).length = false := not_malformed_of_encoded h
  have hsymbols : ∀ b ∈ key :: blocks, isSymbol u.inv b = true := fun b hb =>
    (hu.isSymbol_iff_mem hv).2 (List.forall_mem_cons.2 ⟨hkey, fun _ => encodeGroups_symbols h⟩ b hb)
  have hbytes : decodeMessage form u.inv u.xform.I (key :: blocks) = l :=
    decodeBlocks_encodeGroups (hu.inverse hv) hx hform h
  rw [decodeChecked, hinp, hv, hshape, List.all_eq_true.2 hsymbols, hbytes]
  rfl

/-- With a key under which no group escapes an encoder's message is the key and the blocks (R150, R176). -/
theorem encodeSelected_of_blocks {form : Form} {s t : State} {key : Byte} {blocks : List Byte}
    (hk : selectKey s = .ok (key, t))
    (h : encodeGroups form s.fwd s.xform.T key (pieces (slots form) s.inp) = some blocks) :
    encodeSelected form s = t.succeedOut (key :: blocks) := by
  obtain ⟨r, rfl⟩ := selectKey_frame hk
  simp [encodeSelected, hk, encodeMessage, h]

/-- With an alphabet `ENC` of a non-empty input goes on to key selection (R150). -/
theorem exec_enc_of_alphabet {s : State} (hne : s.inp ≠ []) (hv : s.alphaValid = true) :
    exec .enc s = .next (encodeSelected .general s) := by
  simp [exec, execEnc, hne, hv]

/-- Settles O53: the supplied answer chooses the key, no group escapes under it, and the message decodes. -/
theorem bluffDrawSetsFirstSymbol : Obligations.BluffDrawSetsFirstSymbol := by
  intro s hs hv hb hne j rest hj hx hT
  obtain ⟨blocks, hblocks⟩ := exists_encodeGroups (F := s.fwd) (l := s.inp) hT (.inl rfl)
  have henc := exec_enc_of_alphabet hne hv
  rw [encodeSelected_of_blocks (selectKey_supplied hb hj) hblocks] at henc
  refine ⟨_, henc, rfl, rfl, rfl, congrArg Host.Outcome.next ?_⟩
  exact decodeChecked_of_encoded (hs.congr rfl rfl rfl) hv rfl (readFwd_mem s.fwd j) hx (.inl rfl) hblocks

end Sys2Proof.Machine
end

section
/-! SUPPORT. The general form (43_general_codec.md): what `ENC` and `DEC` do in every state (R153, R161), the round trip (R166),
when no encoder escapes (R156, R180), and what the marks of a text hold (R154, R164, R187). The lemmas about the engine are for
both forms. -/

namespace Sys2Proof.Machine

open Sys2Proof.Claim

/-! ## The end of an encoder -/

/-- With bluff on or a mapped fixed key a key is chosen, and nothing changes but the random source (R140). -/
theorem exists_selectKey {s : State} (h : s.bluff = true ∨ readInv s.inv s.fixedKey ≠ invalidMark) :
    ∃ key r, selectKey s = .ok (key, { s with rnd := r }) ∧ KeyChosen s key r := by
  cases hk : selectKey s with
  | error k =>
    obtain ⟨-, -, rfl⟩ := selectKey_error hk
    obtain ⟨hb, hunmapped⟩ := selectKey_invalidKey_iff.1 hk
    exact h.elim (by simp [hb]) (absurd hunmapped)
  | ok p =>
    have hchosen := keyChosen_of_selectKey hk
    obtain ⟨r, hr⟩ := selectKey_frame hk
    exact ⟨p.1, r, by rw [← hr], by rwa [hr] at hchosen⟩

theorem encodeSelected_of_no_key {form : Form} {s : State} (hk : selectKey s = .error .invalidKey) :
    encodeSelected form s = raise .invalidKey .out s := by
  simp [encodeSelected, hk]

/-- With a key under which some group escapes an encoder gives no message (R156, R180). -/
theorem encodeSelected_of_escape {form : Form} {s t : State} {key : Byte} (hk : selectKey s = .ok (key, t))
    (h : encodeGroups form s.fwd s.xform.T key (pieces (slots form) s.inp) = none) :
    encodeSelected form s = raise .transformRangeEscape .out t := by
  obtain ⟨r, rfl⟩ := selectKey_frame hk
  simp [encodeSelected, hk, encodeMessage, h]

/-! ## ENC, position by position -/

section

variable {F : Vector Byte 64} {T : Byte → Byte → Byte} {key : Byte} {l : List Byte}

/-- The engine's transformed value in slot `p % 3` is the rule's at position `p` (R153, R155). -/
theorem transformed_general {p : Nat} (hp : p < l.length) :
    transformed .general T key (p % 3) l[p] = generalValue T key l p := by
  rw [List.getElem_eq_getD 0]
  rfl

/-- A general-form input has no encoding exactly when some transformed value has bit 7 set (R156). -/
theorem encodeGroups_general_none_iff : encodeGroups .general F T key (pieces (slots .general) l) = none ↔
    ∃ p, p < l.length ∧ (generalValue T key l p).getLsbD 7 = true := by
  refine encodeGroups_none.trans (exists_congr fun p => ?_)
  constructor
  · rintro ⟨hp, hescape⟩
    exact ⟨hp, transformed_general (T := T) hp ▸ hescape⟩
  · rintro ⟨hp, hescape⟩
    exact ⟨hp, (congrArg signBit (transformed_general hp)).trans hescape⟩

theorem exists_encodeGroups_general (h : ∀ p, p < l.length → (generalValue T key l p).getLsbD 7 = false) :
    ∃ blocks, encodeGroups .general F T key (pieces (slots .general) l) = some blocks := by
  rw [← Option.ne_none_iff_exists', ne_eq, encodeGroups_general_none_iff]
  rintro ⟨p, hp, hescape⟩
  exact Bool.false_ne_true ((h p hp).symm.trans hescape)

/-- The key and the blocks of a non-empty input are laid out as the general form says (R82, R84 to R86). -/
theorem generalLayout_of_encodeGroups {blocks : List Byte} (hl : l ≠ [])
    (h : encodeGroups .general F T key (pieces (slots .general) l) = some blocks) :
    GeneralLayout F T key l (key :: blocks) := by
  refine ⟨encodeMessage_length (form := .general) (F := F) (T := T) (key := key) hl (by rw [encodeMessage, h]), rfl,
    fun p hp => ?_, fun g hg => ?_⟩
  · obtain ⟨-, hpayload⟩ := encodeGroups_payload h hp
    rw [show 2 + 4 * (p / 3) + p % 3 = 4 * (p / 3) + 1 + p % 3 + 1 by omega, List.getElem?_cons_succ,
      ← transformed_general hp]
    exact hpayload
  · have hpresent : slots .general * g < l.length := by
      simp only [ceilDiv] at hg
      simp only [slots, Config.genGroup]
      omega
    obtain ⟨mark, hmark, hrange, hsign⟩ := encodeGroups_mark h hpresent
    refine ⟨mark, ?_, fun k hk => ?_⟩
    · rw [show 1 + 4 * g = 4 * g + 1 by omega, List.getElem?_cons_succ]
      exact hmark
    have hrange : mark.getLsbD (2 * k) = (decide (3 * g + k < l.length) &&
      bitSix (transformed .general T key k (l.getD (3 * g + k) 0))) := hrange k hk
    have hsign : mark.getLsbD (2 * k + 1) = (decide (3 * g + k < l.length) &&
      signFlag .general (l.getD (3 * g + k) 0)) := hsign rfl k hk
    have hvalue : transformed .general T key k (l.getD (3 * g + k) 0) = generalValue T key l (3 * g + k) := by
      rw [generalValue, show (3 * g + k) % 3 = k by omega]
      rfl
    rw [hrange, hsign, hvalue]
    refine ⟨fun hin => ?_, fun hout => ?_⟩
    · rw [decide_eq_true hin, Bool.true_and, Bool.true_and]
      exact ⟨rfl, rfl⟩
    · rw [decide_eq_false (Nat.not_lt.2 hout), Bool.false_and, Bool.false_and]
      exact ⟨rfl, rfl⟩

end

/-- Settles O46: the cases of `execEnc_cases` exclude each other, and a chosen key either lets some group escape or lays the
message out. -/
theorem encFollowsRule : Obligations.EncFollowsRule := by
  refine ⟨fun a b => decode_word .enc a b, fun s => ?_⟩
  rcases execEnc_cases s with ⟨hi, e⟩ | ⟨hi, hv, e⟩ | ⟨hi, hv, e⟩
  · exact ⟨fun _ => e, fun hne => absurd hi hne, fun hne => absurd hi hne, fun hne => absurd hi hne⟩
  · exact ⟨fun h => absurd h hi, fun _ _ => e, by simp [hv], by simp [hv]⟩
  · refine ⟨fun h => absurd h hi, by simp [hv], fun _ _ hb hunmapped => ?_, fun _ _ hkey => ?_⟩
    · exact e.trans (congrArg _ (encodeSelected_of_no_key (selectKey_invalidKey_iff.2 ⟨hb, hunmapped⟩)))
    · obtain ⟨key, r, hk, hchosen⟩ := exists_selectKey hkey
      refine ⟨key, r, hchosen, fun hescape => ?_, fun hstays => ?_⟩
      · exact e.trans (congrArg _ (encodeSelected_of_escape hk (encodeGroups_general_none_iff.2 hescape)))
      · obtain ⟨blocks, hblocks⟩ := exists_encodeGroups_general (F := s.fwd) hstays
        exact ⟨key :: blocks, e.trans (congrArg _ (encodeSelected_of_blocks hk hblocks)),
          generalLayout_of_encodeGroups hi hblocks⟩

/-! ## DEC, byte by byte -/

section

variable {form : Form} {N : Vector Byte 256} {I : Byte → Byte → Byte}

/-- A non-empty text of length M gives `M - 1 - ceil((M - 1) / (m + 1))` bytes (R161, R185). -/
theorem decodeMessage_length (text : List Byte) : (decodeMessage form N I text).length =
    text.length - 1 - (text.length - 1 + slots form) / (slots form + 1) := by
  cases text with
  | nil => simp [decodeMessage]
  | cons key body => exact decodeBlocks_length body

/-- The byte a text gives at position `p`: slot `p % m` of the block `p / m` that follows the key (R161, R185). -/
theorem getElem?_decodeMessage {text : List Byte} {p : Nat} (hp : p < (decodeMessage form N I text).length) :
    (decodeMessage form N I text)[p]? = some (decodeSlot form I (text.getD 0 0)
      (valueAt N text (1 + (slots form + 1) * (p / slots form))) (p % slots form)
      (valueAt N text (2 + (slots form + 1) * (p / slots form) + p % slots form))) := by
  rw [decodeMessage_length] at hp
  cases text with
  | nil => simp at hp
  | cons key body =>
    rw [decodeMessage, getElem?_decodeBlocks hp, valueAt, valueAt, Nat.add_comm 1, List.getD_cons_succ,
      show 2 + (slots form + 1) * (p / slots form) + p % slots form =
        (slots form + 1) * (p / slots form) + 1 + p % slots form + 1 by omega, List.getD_cons_succ, List.getD_cons_zero]

end

theorem malformed_iff {form : Form} {M : Nat} : malformed form M = true ↔ (M - 1) % (slots form + 1) = 1 :=
  decide_eq_true_iff

theorem not_malformed_iff {form : Form} {M : Nat} : malformed form M = false ↔ (M - 1) % (slots form + 1) ≠ 1 :=
  decide_eq_false_iff_not

/-- Settles O48: the cases of `decodeChecked_cases` exclude each other, and each byte is that of its slot. -/
theorem decFollowsRule : Obligations.DecFollowsRule := by
  refine ⟨fun a b => decode_word .dec a b, fun s => ?_⟩
  rcases execDec_cases s with ⟨hi, e⟩ | ⟨hi, e⟩
  · exact ⟨fun _ => e, fun hne => absurd hi hne, fun hne => absurd hi hne, fun hne => absurd hi hne,
      fun hne => absurd hi hne⟩
  refine ⟨fun h => absurd h hi, ?_⟩
  rcases decodeChecked_cases .general s with
    ⟨hv, e'⟩ | ⟨hv, hm, e'⟩ | ⟨hv, hm, ⟨b, hb, hforeign⟩, e'⟩ | ⟨hv, hm, hall, e'⟩ <;> rw [e'] at e
  · exact ⟨fun _ _ => e, by simp [hv], by simp [hv], by simp [hv]⟩
  · have hshape : (s.inp.length - 1) % 4 = 1 := malformed_iff.1 hm
    exact ⟨by simp [hv], fun _ _ _ => e, fun _ _ h => absurd hshape h, fun _ _ h => absurd hshape h⟩
  · have hshape : (s.inp.length - 1) % 4 ≠ 1 := not_malformed_iff.1 hm
    rw [← Bool.not_eq_true, isSymbol_iff, not_not] at hforeign
    exact ⟨by simp [hv], fun _ _ h => absurd h hshape, fun _ _ _ _ => e, fun _ _ _ h => absurd hforeign (h b hb)⟩
  · have hshape : (s.inp.length - 1) % 4 ≠ 1 := not_malformed_iff.1 hm
    exact ⟨by simp [hv], fun _ _ h => absurd h hshape,
      fun _ _ _ ⟨b, hb, hforeign⟩ => absurd hforeign (isSymbol_iff.1 (hall b hb)),
      fun _ _ _ _ => ⟨_, e, decodeMessage_length s.inp, fun p hp => getElem?_decodeMessage hp⟩⟩

/-! ## The two encoders and the two decoders -/

/-- The encoder of a form. -/
def Form.encoder : Form → Instr
  | .general => .enc
  | .ascii => .enca

/-- The decoder of a form. -/
def Form.decoder : Form → Instr
  | .general => .dec
  | .ascii => .deca

/-- The inputs a form can encode: any bytes, or the bytes below 128 (R153, R179). -/
def Form.Accepts (form : Form) (l : List Byte) : Prop := form = .general ∨ ∀ b ∈ l, signBit b = false

/-- An encoder gives nothing for nothing, fails one of its first checks, or goes on to key selection (R150, R176). -/
theorem exec_encoder_cases (form : Form) (s : State) :
    (s.inp = [] ∧ exec form.encoder s = .next (s.succeedOut [])) ∨
    (s.inp ≠ [] ∧ ¬ (s.alphaValid = true ∧ form.Accepts s.inp) ∧
      ∃ k, k ≠ .transformRangeEscape ∧ exec form.encoder s = .next (raise k .out s)) ∨
    (s.inp ≠ [] ∧ s.alphaValid = true ∧ form.Accepts s.inp ∧
      exec form.encoder s = .next (encodeSelected form s)) := by
  cases form with
  | general =>
    rcases execEnc_cases s with ⟨hi, e⟩ | ⟨hi, hv, e⟩ | ⟨hi, hv, e⟩
    · exact .inl ⟨hi, e⟩
    · exact .inr (.inl ⟨hi, by simp [hv], .invalidAlphabet, nofun, e⟩)
    · exact .inr (.inr ⟨hi, hv, .inl rfl, e⟩)
  | ascii =>
    rcases execEnca_cases s with ⟨hi, e⟩ | ⟨hi, hv, e⟩ | ⟨hi, hv, hsign, e⟩ | ⟨hi, hv, hsign, e⟩
    · exact .inl ⟨hi, e⟩
    · exact .inr (.inl ⟨hi, by simp [hv], .invalidAlphabet, nofun, e⟩)
    · exact .inr (.inl ⟨hi, by simpa [hv, Form.Accepts] using hsign, .outOfRangeByte, nofun, e⟩)
    · exact .inr (.inr ⟨hi, hv, .inr hsign, e⟩)

/-- A decoder gives nothing for nothing, and checks any other text (R160, R184). -/
theorem exec_decoder_cases (form : Form) (s : State) :
    (s.inp = [] ∧ exec form.decoder s = .next (s.succeedOut [])) ∨
    (s.inp ≠ [] ∧ exec form.decoder s = .next (decodeChecked form s)) := by
  cases form with
  | general => exact execDec_cases s
  | ascii => exact execDeca_cases s

theorem exec_decoder_of_empty (form : Form) {s : State} (hi : s.inp = []) :
    exec form.decoder s = .next (s.succeedOut []) :=
  (exec_decoder_cases form s).elim And.right fun h => absurd hi h.1

theorem exec_decoder_of_text (form : Form) {s : State} (hi : s.inp ≠ []) :
    exec form.decoder s = .next (decodeChecked form s) :=
  (exec_decoder_cases form s).elim (fun h => absurd h.1 hi) And.right

/-! ## The round trip -/

/-- An encoder that ends in `OK` after its first checks has chosen a key under which no group escapes (R150, R176). -/
theorem encodeSelected_ok {form : Form} {s : State} (hok : (encodeSelected form s).status = statusOk) :
    ∃ key r blocks, selectKey s = .ok (key, { s with rnd := r }) ∧
      encodeGroups form s.fwd s.xform.T key (pieces (slots form) s.inp) = some blocks ∧
      encodeSelected form s = { s with rnd := r }.succeedOut (key :: blocks) := by
  rcases encodeSelected_cases form s with ⟨-, e⟩ | ⟨key, t, hk, ⟨-, e⟩ | ⟨blocks, hblocks, e⟩⟩
  · rw [e] at hok
    exact absurd hok (errorCode_range .invalidKey).1
  · rw [e] at hok
    exact absurd hok (errorCode_range .transformRangeEscape).1
  · obtain ⟨r, rfl⟩ := selectKey_frame hk
    exact ⟨key, r, blocks, hk, hblocks, e⟩

/-- Both forms round trip: an encoder that ends in `OK` gives nothing for nothing, or a message that decodes to its input
(R166, R190). -/
theorem roundTrips (form : Form) (s : State) : RoundTrips form.encoder form.decoder s := by
  intro t u h hok hinp hsame
  rcases exec_encoder_cases form s with ⟨hi, e⟩ | ⟨-, -, k, -, e⟩ | ⟨hi, hv, haccepts, e⟩ <;> cases h.symm.trans e
  · rw [exec_decoder_of_empty form hinp, hi]
    rfl
  · exact absurd hok (errorCode_range k).1
  · obtain ⟨key, r, blocks, hk, hblocks, e'⟩ := encodeSelected_ok hok
    rw [e'] at hinp hsame
    obtain ⟨hs, (hf : u.fwd = s.fwd), (hinv : u.inv = s.inv), (ha : u.alphaValid = s.alphaValid),
      (hx : u.xform = s.xform), hundoes⟩ := hsame hi
    have hu : AlphabetInv u := hs.congr hf hinv ha
    have hkey : key ∈ u.fwd.toList := hf ▸ selectKey_symbol hs hv hk
    rw [exec_decoder_of_text form (hinp ▸ List.cons_ne_nil key blocks)]
    exact congrArg Host.Outcome.next (decodeChecked_of_encoded hu (ha.trans hv) hinp hkey (hx ▸ hundoes) haccepts
      (by rw [hf, hx]; exact hblocks))

/-- Settles O50: the round trip of both forms, in the general one. -/
theorem generalFormRoundTrips : Obligations.GeneralFormRoundTrips :=
  fun s => roundTrips .general s

/-- While the transform stays below 128 under every symbol, an encoder that can choose a key succeeds on the inputs of its
form. -/
theorem exec_encoder_ok {form : Form} {s : State} (hs : AlphabetInv s) (hv : s.alphaValid = true)
    (hkey : s.bluff = true ∨ readInv s.inv s.fixedKey ≠ invalidMark) (haccepts : form.Accepts s.inp)
    (hT : ∀ b k : Byte, b.toNat < 128 → k ∈ s.fwd.toList → (s.xform.T b k).toNat < 128) :
    ∃ t, exec form.encoder s = .next t ∧ t.status = statusOk := by
  rcases exec_encoder_cases form s with ⟨-, e⟩ | ⟨-, hfails, -⟩ | ⟨-, -, -, e⟩
  · exact ⟨_, e, rfl⟩
  · exact absurd ⟨hv, haccepts⟩ hfails
  · obtain ⟨key, r, hk, -⟩ := exists_selectKey hkey
    obtain ⟨blocks, hblocks⟩ := exists_encodeGroups (F := s.fwd)
      (fun b hb => hT b key hb (selectKey_symbol hs hv hk)) haccepts
    exact ⟨_, e, by rw [encodeSelected_of_blocks hk hblocks]; rfl⟩

/-- The default transform keeps 0..127 within 0..127 under a key below 128 (R121). -/
theorem default_T_lt {b k : Byte} (hb : b.toNat < 128) (hk : k.toNat < 128) : (Xform.default.T b k).toNat < 128 := by
  rw [default_T, BitVec.toNat_xor]
  exact Nat.xor_lt_two_pow (n := 7) hb hk

/-- Under the default transform and an alphabet below 128 an encoder succeeds on the inputs of its form, and the decoder gives
them back (R121, R166, R190). -/
theorem default_roundTrips {form : Form} {s : State} (hs : AlphabetInv s) (hv : s.alphaValid = true)
    (hx : s.xform = Xform.default) (halphabet : ∀ b ∈ s.fwd.toList, b.toNat < 128)
    (hkey : s.bluff = true ∨ s.fixedKey ∈ s.fwd.toList) (haccepts : form.Accepts s.inp) :
    ∃ t, exec form.encoder s = .next t ∧ t.status = 0 ∧
      exec form.decoder { t with inp := t.out } = .next { t with inp := t.out, out := s.inp } := by
  obtain ⟨t, h, hok⟩ := exec_encoder_ok hs hv
    (hkey.imp_right fun hmem => isSymbol_iff.1 ((hs.isSymbol_iff_mem hv).2 hmem)) haccepts
    fun b k hb hmem => by rw [hx]; exact default_T_lt hb (halphabet k hmem)
  refine ⟨t, h, hok, ?_⟩
  rw [roundTrips form s t { t with inp := t.out } h hok rfl
    fun _ => ⟨hs, rfl, rfl, rfl, rfl, by rw [hx]; exact default_undoes _⟩, ← hok]

/-- Settles O52: both forms, each on the inputs it accepts. -/
theorem defaultTransformRoundTrips : Obligations.DefaultTransformRoundTrips := by
  intro s hs hv hx halphabet hkey
  exact ⟨default_roundTrips (form := .general) hs hv hx halphabet hkey (.inl rfl), fun hsmall =>
    default_roundTrips (form := .ascii) hs hv hx halphabet hkey (.inr fun b hb => signBit_eq_false_iff.2 (hsmall b hb))⟩

/-! ## TransformRangeEscape -/

theorem safe_raise {k : ErrorKind} (hk : k ≠ .transformRangeEscape) (r : ResultReg) (s : State) : Safe (raise k r s) :=
  fun e => hk (errorCode_injective e)

theorem safe_succeedOut (s : State) (l : List Byte) : Safe (s.succeedOut l) :=
  (errorCode_range .transformRangeEscape).1.symm

theorem exec_encoder_safe {form : Form} {s t : State} (hs : AlphabetInv s)
    (hT : ∀ b k : Byte, b.toNat < 128 → k ∈ s.fwd.toList → (s.xform.T b k).toNat < 128)
    (h : exec form.encoder s = .next t) : Safe t := by
  rcases exec_encoder_cases form s with ⟨-, e⟩ | ⟨-, -, k, hk, e⟩ | ⟨-, hv, haccepts, e⟩ <;> cases h.symm.trans e
  · exact safe_succeedOut s []
  · exact safe_raise hk .out s
  rcases encodeSelected_cases form s with ⟨-, e⟩ | ⟨key, u, hk, ⟨hescape, -⟩ | ⟨blocks, -, e⟩⟩
  · rw [e]
    exact safe_raise (k := .invalidKey) nofun .out s
  · obtain ⟨blocks, hblocks⟩ := exists_encodeGroups (F := s.fwd)
      (fun b hb => hT b key hb (selectKey_symbol hs hv hk)) haccepts
    cases hescape.symm.trans hblocks
  · rw [e]
    exact safe_succeedOut u (key :: blocks)

/-- Settles O55: a chosen key is a symbol, and under it no group escapes. -/
theorem noEscapeWhileTransformStaysBelow128 : Obligations.NoEscapeWhileTransformStaysBelow128 := by
  rintro i s t (rfl | rfl) hs hT h
  · exact exec_encoder_safe (form := .general) hs hT h
  · exact exec_encoder_safe (form := .ascii) hs hT h

/-! ## A byte and its complement -/

theorem fold_not (b : Byte) : fold (~~~b) = fold b := by
  have hnot : (~~~b).getLsbD 7 = !b.getLsbD 7 := by simp
  rw [fold, fold, hnot]
  cases b.getLsbD 7
  · exact BitVec.not_not
  · rfl

section

variable {F : Vector Byte 64} {T : Byte → Byte → Byte} {key b : Byte}

theorem generalValue_not : generalValue T key [~~~b] 0 = generalValue T key [b] 0 :=
  congrArg (fun x => T x key ^^^ BitVec.ofNat 8 0) (fold_not b)

/-- The complement of a byte that does not escape does not escape (R154, R156). -/
theorem exists_encodeGroups_not {blocks : List Byte}
    (h : encodeGroups .general F T key (pieces (slots .general) [b]) = some blocks) :
    ∃ blocks', encodeGroups .general F T key (pieces (slots .general) [~~~b]) = some blocks' := by
  rw [← Option.ne_none_iff_exists', ne_eq, encodeGroups_general_none_iff]
  rintro ⟨p, hp, hescape⟩
  cases Nat.lt_one_iff.1 hp
  rw [generalValue_not] at hescape
  have hnone := (encodeGroups_general_none_iff (F := F) (l := [b])).2 ⟨0, Nat.one_pos, hescape⟩
  cases hnone.symm.trans h

/-- Two general-form messages of a byte and its complement under one key differ in the mark alone (R154). -/
theorem generalLayout_not {out out' : List Byte} (hF : F.toList.Nodup) (h : GeneralLayout F T key [b] out)
    (h' : GeneralLayout F T key [~~~b] out') :
    out'[0]? = out[0]? ∧ out'[2]? = out[2]? ∧ out'[1]? ≠ out[1]? := by
  obtain ⟨-, hkey, hpayload, hmarks⟩ := h
  obtain ⟨-, hkey', hpayload', hmarks'⟩ := h'
  have one_group : 0 < ceilDiv 1 3 := by decide
  refine ⟨hkey'.trans hkey.symm, ?_, fun heq => ?_⟩
  · have hsymbol := hpayload' 0 Nat.one_pos
    rw [generalValue_not] at hsymbol
    exact hsymbol.trans (hpayload 0 Nat.one_pos).symm
  · obtain ⟨mark, hmark, hbits⟩ := hmarks 0 one_group
    obtain ⟨mark', hmark', hbits'⟩ := hmarks' 0 one_group
    have hsame : mark' = mark := readFwd_injective hF (Option.some.inj (hmark'.symm.trans (heq.trans hmark)))
    have hsign : mark.getLsbD 1 = b.getLsbD 7 := ((hbits 0 (by decide)).1 Nat.one_pos).2
    have hsign' : mark'.getLsbD 1 = (~~~b).getLsbD 7 := ((hbits' 0 (by decide)).1 Nat.one_pos).2
    rw [hsame, hsign] at hsign'
    simp at hsign'

end

/-- With bluff off key selection succeeds with the fixed key alone (R140). -/
theorem selectKey_fixed {s : State} (hb : s.bluff = false) {p : Byte × State} :
    selectKey s = .ok p ↔ isSymbol s.inv s.fixedKey = true ∧ p = (s.fixedKey, s) := by
  cases hk : isSymbol s.inv s.fixedKey <;> simp [selectKey, hb, hk, eq_comm]

/-- Settles O60: `ENC` of either byte chooses the fixed key and meets the same transformed value. -/
theorem complementSharesPayload : Obligations.ComplementSharesPayload := by
  intro s t u b hinp hs hbluff ht hu hok
  rcases execEnc_cases s with ⟨hi, -⟩ | ⟨-, -, e⟩ | ⟨hi, hv, e⟩
  · cases hinp.symm.trans hi
  · cases ht.symm.trans e
    exact absurd hok (errorCode_range .invalidAlphabet).1
  cases ht.symm.trans e
  obtain ⟨key, r, blocks, hk, hblocks, e'⟩ := encodeSelected_ok hok
  obtain ⟨hsymbol, hfixed⟩ := (selectKey_fixed hbluff).1 hk
  obtain ⟨rfl, -⟩ := Prod.ext_iff.1 hfixed
  rw [hinp] at hblocks
  obtain ⟨blocks', hblocks'⟩ := exists_encodeGroups_not hblocks
  have hk' : selectKey { s with inp := [~~~b] } = .ok (s.fixedKey, { s with inp := [~~~b] }) :=
    (selectKey_fixed (s := { s with inp := [~~~b] }) hbluff).2 ⟨hsymbol, rfl⟩
  have henc := exec_enc_of_alphabet (s := { s with inp := [~~~b] }) (List.cons_ne_nil _ _) hv
  rw [encodeSelected_of_blocks hk' hblocks'] at henc
  cases hu.symm.trans henc
  rw [e']
  exact ⟨rfl, generalLayout_not (hs.distinct hv) (generalLayout_of_encodeGroups (List.cons_ne_nil _ _) hblocks)
    (generalLayout_of_encodeGroups (List.cons_ne_nil _ _) hblocks')⟩

/-! ## The mark bits of absent slots -/

theorem all_iff_getD {l : List Byte} {f : Byte → Bool} :
    l.all f = true ↔ ∀ p, p < l.length → f (l.getD p 0) = true := by
  rw [List.all_eq_true, List.forall_mem_iff_getElem]
  exact forall₂_congr fun p hp => by rw [List.getElem_eq_getD 0]

/-- Two marks agree in the bits of the first `n` slots (R86, R87). -/
def MarksAgree (form : Form) (n : Nat) (mark mark' : Byte) : Prop :=
  ∀ k, k < n → mark'.getLsbD (rangeBit form k) = mark.getLsbD (rangeBit form k) ∧
    markSign form mark' k = markSign form mark k

/-- Of a mark a decoder sees the bits of the slot (R161, R185). -/
theorem decodeSlot_congr_mark {form : Form} {I : Byte → Byte → Byte} {key mark mark' v : Byte} {n k : Nat}
    (h : MarksAgree form n mark mark') (hk : k < n) :
    decodeSlot form I key mark' k v = decodeSlot form I key mark k v := by
  obtain ⟨hrange, hsign⟩ := h k hk
  rw [decodeSlot, decodeSlot, hrange, hsign]

/-- A text of length M has at `M - r` the mark of a short last block of `r` symbols: no byte has its payload there, and a byte
with its mark there is in one of the first `r - 1` slots. -/
theorem last_mark_position {form : Form} {M r p : Nat} (hr : r = (M - 1) % (slots form + 1)) (h2 : 2 ≤ r)
    (hp : p < M - 1 - (M - 1 + slots form) / (slots form + 1)) :
    2 + (slots form + 1) * (p / slots form) + p % slots form ≠ M - r ∧
      (1 + (slots form + 1) * (p / slots form) = M - r → p % slots form < r - 1) := by
  cases form
  · simp only [slots, Config.genGroup] at *; omega
  · simp only [slots, Config.ascGroup] at *; omega

section

variable {form : Form} {text text' : List Byte} {r : Nat} (hlen : text'.length = text.length)
  (hr : r = (text.length - 1) % (slots form + 1)) (h2 : 2 ≤ r)
  (hagree : ∀ p, p ≠ text.length - r → text'.getD p 0 = text.getD p 0)
include hlen hr h2 hagree

/-- Texts that differ in the mark of a short last block alone, and there only in the bits of absent slots, have the same
bytes (R164, R187). -/
theorem decodeMessage_of_absent_slots {N : Vector Byte 256} {I : Byte → Byte → Byte}
    (hmarks : MarksAgree form (r - 1) (valueAt N text (text.length - r)) (valueAt N text' (text.length - r))) :
    decodeMessage form N I text' = decodeMessage form N I text := by
  have hbytes : (decodeMessage form N I text').length = (decodeMessage form N I text).length := by
    rw [decodeMessage_length, decodeMessage_length, hlen]
  have hvalue : ∀ p, p ≠ text.length - r → valueAt N text' p = valueAt N text p :=
    fun p hp => congrArg (readInv N) (hagree p hp)
  have hle : r ≤ text.length - 1 := hr ▸ Nat.mod_le _ _
  apply List.ext_getElem?
  intro p
  by_cases hp : p < (decodeMessage form N I text).length
  · obtain ⟨hpayload, hslot⟩ := last_mark_position hr h2 (decodeMessage_length text ▸ hp)
    rw [getElem?_decodeMessage hp, getElem?_decodeMessage (hbytes ▸ hp), hagree 0 (by omega), hvalue _ hpayload]
    congr 1
    by_cases hlast : 1 + (slots form + 1) * (p / slots form) = text.length - r
    · rw [hlast]
      exact decodeSlot_congr_mark hmarks (hslot hlast)
    · rw [hvalue _ hlast]
  · rw [List.getElem?_eq_none (Nat.le_of_not_lt hp), List.getElem?_eq_none (hbytes ▸ Nat.le_of_not_lt hp)]

variable {s : State} (hmark : isSymbol s.inv (text.getD (text.length - r) 0) = true)
  (hmark' : isSymbol s.inv (text'.getD (text.length - r) 0) = true)
  (hmarks : MarksAgree form (r - 1) (valueAt s.inv text (text.length - r)) (valueAt s.inv text' (text.length - r)))
include hmark hmark' hmarks

/-- Such texts have the same shape, and both are made of symbols or neither is. -/
theorem decodeChecked_of_absent_slots : decodeChecked form { s with inp := text' } =
    { decodeChecked form { s with inp := text } with inp := text' } := by
  have hsymbols : text'.all (isSymbol s.inv) = text.all (isSymbol s.inv) := by
    rw [Bool.eq_iff_iff, all_iff_getD, all_iff_getD, hlen]
    refine forall₂_congr fun p _ => ?_
    by_cases hp : p = text.length - r
    · rw [hp, hmark, hmark']
    · rw [hagree p hp]
  have hmessage := decodeMessage_of_absent_slots hlen hr h2 hagree (I := s.xform.I) hmarks
  simp only [decodeChecked, hlen, hsymbols, hmessage]
  cases s.alphaValid <;> cases malformed form text.length <;> cases text.all (isSymbol s.inv) <;> rfl

theorem exec_decoder_of_absent_slots {t : State} (h : exec form.decoder { s with inp := text } = .next t) :
    exec form.decoder { s with inp := text' } = .next { t with inp := text' } := by
  have hle : r ≤ text.length - 1 := hr ▸ Nat.mod_le _ _
  have hne : text ≠ [] := List.ne_nil_of_length_pos (by omega)
  have hne' : text' ≠ [] := List.ne_nil_of_length_pos (by omega)
  cases h.symm.trans (exec_decoder_of_text form (s := { s with inp := text }) hne)
  rw [exec_decoder_of_text form hne']
  exact congrArg Host.Outcome.next (decodeChecked_of_absent_slots hlen hr h2 hagree hmark hmark' hmarks)

end

/-- Settles O57: the bits given to agree are those of the slots present, in each form. -/
theorem decodersIgnoreAbsentSlots : Obligations.DecodersIgnoreAbsentSlots := by
  intro s text text' r hlen _ hagree hmark hmark'
  rw [← invalidMark, ← isSymbol_iff] at hmark hmark'
  refine ⟨fun hr h2 hbits t h => ?_, fun hr h2 hbits t h => ?_⟩
  · exact exec_decoder_of_absent_slots (form := .general) hlen hr h2 hagree hmark hmark'
      (fun k hk => ⟨hbits (2 * k) (by omega), hbits (2 * k + 1) (by omega)⟩) h
  · exact exec_decoder_of_absent_slots (form := .ascii) hlen hr h2 hagree hmark hmark'
      (fun k hk => ⟨hbits k hk, rfl⟩) h

end Sys2Proof.Machine
end

section
/-! SUPPORT. The ASCII form (44_ascii_codec.md): what `ENCA` and `DECA` do in every state (R178, R185), the round trip (R190),
and the one-byte texts the two forms share (R189). The lemmas about messages and texts are for both forms. -/

namespace Sys2Proof.Machine

open Sys2Proof.Claim

/-! ## Messages, position by position -/

/-- The transformed value of the byte at position `p` of an input, in the slot `p % m` (R153, R155, R178); in the ASCII
form it is `asciiValue` by definition. -/
def transformedAt (form : Form) (T : Byte → Byte → Byte) (key : Byte) (l : List Byte) (p : Nat) : Byte :=
  transformed form T key (p % slots form) (l.getD p 0)

section

variable {form : Form} {F : Vector Byte 64} {T : Byte → Byte → Byte} {key : Byte} {l : List Byte}

theorem transformedAt_eq_getElem {p : Nat} (hp : p < l.length) :
    transformedAt form T key l p = transformed form T key (p % slots form) l[p] := by
  rw [List.getElem_eq_getD 0, transformedAt]

theorem transformedAt_slot {g k : Nat} (hk : k < slots form) : transformedAt form T key l (slots form * g + k) =
    transformed form T key k (l.getD (slots form * g + k) 0) := by
  rw [transformedAt, Nat.mul_add_mod_self_left, Nat.mod_eq_of_lt hk]

/-- An input has no encoding exactly when the transformed value at some position has bit 7 set (R156, R180). -/
theorem encodeGroups_none_iff_transformedAt : encodeGroups form F T key (pieces (slots form) l) = none ↔
    ∃ p, p < l.length ∧ signBit (transformedAt form T key l p) = true := by
  refine encodeGroups_none.trans (exists_congr fun p => ?_)
  rw [← exists_prop]
  exact exists_congr fun hp => by rw [transformedAt_eq_getElem hp]

theorem exists_encodeGroups_of_transformedAt (h : ∀ p, p < l.length → signBit (transformedAt form T key l p) = false) :
    ∃ blocks, encodeGroups form F T key (pieces (slots form) l) = some blocks := by
  rw [← Option.ne_none_iff_exists', ne_eq, encodeGroups_none_iff_transformedAt]
  rintro ⟨p, hp, hescape⟩
  exact Bool.false_ne_true ((h p hp).symm.trans hescape)

section

variable {blocks : List Byte} (h : encodeGroups form F T key (pieces (slots form) l) = some blocks)
include h

/-- The payload symbol of the byte at position `p` of the input (R82, R83, R85). -/
theorem getElem?_message_payload {p : Nat} (hp : p < l.length) :
    (key :: blocks)[2 + (slots form + 1) * (p / slots form) + p % slots form]? =
      some (readFwd F (lowSix (transformedAt form T key l p))) := by
  obtain ⟨-, hpayload⟩ := encodeGroups_payload h hp
  rw [show 2 + (slots form + 1) * (p / slots form) + p % slots form =
      (slots form + 1) * (p / slots form) + 1 + p % slots form + 1 by omega,
    List.getElem?_cons_succ, hpayload, transformedAt_eq_getElem hp]

/-- The mark symbol of group `g`: it carries `n[6]` of the slots present and 0 for absent ones (R86, R87). -/
theorem getElem?_message_mark {g : Nat} (hg : slots form * g < l.length) :
    ∃ mark : Value, (key :: blocks)[1 + (slots form + 1) * g]? = some (readFwd F mark) ∧ ∀ k, k < slots form →
      (slots form * g + k < l.length →
        mark.getLsbD (rangeBit form k) = bitSix (transformedAt form T key l (slots form * g + k))) ∧
      (l.length ≤ slots form * g + k → mark.getLsbD (rangeBit form k) = false) := by
  obtain ⟨mark, hmark, hrange, -⟩ := encodeGroups_mark h hg
  refine ⟨mark, by rw [Nat.add_comm, List.getElem?_cons_succ, hmark], fun k hk => ?_⟩
  rw [hrange k hk, transformedAt_slot hk]
  exact ⟨fun hin => by rw [decide_eq_true hin, Bool.true_and],
    fun hout => by rw [decide_eq_false (Nat.not_lt.2 hout), Bool.false_and]⟩

end

/-- The key and the blocks of a non-empty input are laid out as the ASCII form says (R83 to R85, R87). -/
theorem asciiLayout_of_encodeGroups {blocks : List Byte} (hl : l ≠ [])
    (h : encodeGroups .ascii F T key (pieces (slots .ascii) l) = some blocks) :
    AsciiLayout F T key l (key :: blocks) := by
  refine ⟨encodeMessage_length (form := .ascii) (F := F) (T := T) (key := key) hl (by rw [encodeMessage, h]), rfl,
    fun p hp => getElem?_message_payload h hp, fun g hg => getElem?_message_mark h (g := g) ?_⟩
  simp only [ceilDiv] at hg
  simp only [slots, Config.ascGroup]
  omega

end

/-! ## ENCA -/

section

variable {s : State}

theorem exec_enca_of_empty (hi : s.inp = []) : exec .enca s = .next (s.succeedOut []) := by
  simp [exec, execEnca, hi]

theorem exec_enca_of_no_alphabet (hi : s.inp ≠ []) (hv : s.alphaValid = false) :
    exec .enca s = .next (raise .invalidAlphabet .out s) := by
  simp [exec, execEnca, hi, hv]

/-- The whole input is searched for bytes of 128 and more before a key is chosen (R176, R179). -/
theorem exec_enca_of_high_byte (hv : s.alphaValid = true) {b : Byte} (hb : b ∈ s.inp) (hhigh : 128 ≤ b.toNat) :
    exec .enca s = .next (raise .outOfRangeByte .out s) := by
  have hsign : signBit b ≠ false := fun h => absurd (signBit_eq_false_iff.1 h) (Nat.not_lt.2 hhigh)
  rcases execEnca_cases s with ⟨hi, -⟩ | ⟨-, hv', -⟩ | ⟨-, -, -, e⟩ | ⟨-, -, hlow, -⟩
  · exact absurd hi (List.ne_nil_of_mem hb)
  · cases hv.symm.trans hv'
  · exact e
  · exact absurd (hlow b hb) hsign

/-- With an alphabet `ENCA` of a non-empty input of bytes below 128 goes on to key selection (R176). -/
theorem exec_enca_of_low_bytes (hi : s.inp ≠ []) (hv : s.alphaValid = true) (hlow : ∀ b ∈ s.inp, b.toNat < 128) :
    exec .enca s = .next (encodeSelected .ascii s) := by
  rcases execEnca_cases s with ⟨hi', -⟩ | ⟨-, hv', -⟩ | ⟨-, -, ⟨b, hb, hsign⟩, -⟩ | ⟨-, -, -, e⟩
  · exact absurd hi' hi
  · cases hv.symm.trans hv'
  · cases hsign.symm.trans (signBit_eq_false_iff.2 (hlow b hb))
  · exact e

end

/-- Settles O47: each clause is one of `ENCA`'s checks failing, or the message of a chosen key, laid out unless some
transformed value escapes. -/
theorem encaFollowsRule : Obligations.EncaFollowsRule := by
  refine ⟨fun a b => decode_word .enca a b, fun s => ⟨exec_enca_of_empty, exec_enca_of_no_alphabet,
    fun hv ⟨b, hb, hhigh⟩ => exec_enca_of_high_byte hv hb hhigh, fun hi hv hlow hb hunmapped => ?_,
    fun hi hv hlow hkey => ?_⟩⟩
  · rw [exec_enca_of_low_bytes hi hv hlow, encodeSelected_of_no_key (selectKey_invalidKey_iff.2 ⟨hb, hunmapped⟩)]
    rfl
  · obtain ⟨key, r, hk, hchosen⟩ := exists_selectKey hkey
    rw [exec_enca_of_low_bytes hi hv hlow]
    refine ⟨key, r, hchosen, fun hescape => ?_, fun hstays => ?_⟩
    · have hnone : encodeGroups .ascii s.fwd s.xform.T key (pieces (slots .ascii) s.inp) = none :=
        encodeGroups_none_iff_transformedAt.2 hescape
      exact congrArg _ (encodeSelected_of_escape hk hnone)
    · obtain ⟨blocks, hblocks⟩ := exists_encodeGroups_of_transformedAt (form := .ascii) (F := s.fwd) hstays
      exact ⟨key :: blocks, congrArg _ (encodeSelected_of_blocks hk hblocks), asciiLayout_of_encodeGroups hi hblocks⟩

/-! ## DECA -/

section

variable {form : Form} {s : State}

theorem decodeChecked_of_malformed (hv : s.alphaValid = true) (hm : (s.inp.length - 1) % (slots form + 1) = 1) :
    decodeChecked form s = raise .malformedMessage .out s := by
  simp [decodeChecked, hv, malformed_iff.2 hm]

/-- The shape of a text is checked before its symbols (R160, R184). -/
theorem decodeChecked_of_foreign (hv : s.alphaValid = true) (hm : (s.inp.length - 1) % (slots form + 1) ≠ 1) {b : Byte}
    (hb : b ∈ s.inp) (hforeign : readInv s.inv b = invalidMark) :
    decodeChecked form s = raise .unknownSymbol .out s := by
  have hall : s.inp.all (isSymbol s.inv) = false := List.all_eq_false.2 ⟨b, hb, by simp [isSymbol, hforeign]⟩
  simp only [decodeChecked, hv, not_malformed_iff.2 hm, hall, Bool.not_true, Bool.false_eq_true, if_false]

theorem decodeChecked_of_symbols (hv : s.alphaValid = true) (hm : (s.inp.length - 1) % (slots form + 1) ≠ 1)
    (hsymbols : ∀ b ∈ s.inp, readInv s.inv b ≠ invalidMark) :
    decodeChecked form s = s.succeedOut (decodeMessage form s.inv s.xform.I s.inp) := by
  have hall : s.inp.all (isSymbol s.inv) = true := List.all_eq_true.2 fun b hb => isSymbol_iff.2 (hsymbols b hb)
  simp only [decodeChecked, hv, not_malformed_iff.2 hm, hall, Bool.not_true, Bool.false_eq_true, if_false, if_true]

end

/-- Settles O49: each clause is one of a decoder's checks failing, or the decoded text, each byte being that of its slot. -/
theorem decaFollowsRule : Obligations.DecaFollowsRule := by
  refine ⟨fun a b => decode_word .deca a b, fun s => ⟨exec_decoder_of_empty .ascii, fun hi hv => ?_,
    fun hi hv hm => ?_, fun hi hv hm ⟨b, hb, hforeign⟩ => ?_, fun hi hv hm hsymbols => ?_⟩⟩
  all_goals have e := exec_decoder_of_text .ascii hi
  · exact e.trans (congrArg _ (decodeChecked_of_no_alphabet hv .ascii))
  · exact e.trans (congrArg _ (decodeChecked_of_malformed hv hm))
  · exact e.trans (congrArg _ (decodeChecked_of_foreign hv hm hb hforeign))
  · exact ⟨_, e.trans (congrArg _ (decodeChecked_of_symbols hv hm hsymbols)), decodeMessage_length s.inp,
      fun p hp => getElem?_decodeMessage hp⟩

/-! ## The round trip -/

/-- Settles O51: the round trip of both forms, in the ASCII one. -/
theorem asciiFormRoundTrips : Obligations.AsciiFormRoundTrips :=
  fun s => roundTrips .ascii s

/-! ## One-byte texts -/

/-- An unsigned byte alone is the one slot 0 of a block with mark bit 0 in both forms (R86, R87, R189). -/
theorem encodeSlots_one_byte {F : Vector Byte 64} {T : Byte → Byte → Byte} {key b : Byte} (hb : signBit b = false) :
    encodeSlots .general F T key 0 [b] = encodeSlots .ascii F T key 0 [b] := by
  have hflag : signFlag .general b = signFlag .ascii b := hb
  have hvalue : transformed .general T key 0 b = transformed .ascii T key 0 b := by
    rw [transformed, transformed, hflag]
  rw [encodeSlots, encodeSlots, hvalue, hflag]
  rfl

theorem encodeMessage_one_byte {F : Vector Byte 64} {T : Byte → Byte → Byte} {key b : Byte} (hb : signBit b = false) :
    encodeMessage .general F T key [b] = encodeMessage .ascii F T key [b] := by
  have hpieces (form : Form) : pieces (slots form) [b] = [[b]] := by cases form <;> rfl
  simp only [encodeMessage, hpieces, encodeGroups, encodeGroup, encodeSlots_one_byte hb]

/-- The end of an encoder depends on the form through the message alone. -/
theorem encodeSelected_congr {form form' : Form} {s : State}
    (h : ∀ key, encodeMessage form s.fwd s.xform.T key s.inp = encodeMessage form' s.fwd s.xform.T key s.inp) :
    encodeSelected form s = encodeSelected form' s := by
  rw [encodeSelected, encodeSelected]
  cases hk : selectKey s with
  | error k => rfl
  | ok p =>
    obtain ⟨key, t⟩ := p
    obtain ⟨r, rfl⟩ := selectKey_frame hk
    simp only [h key]

/-- Settles O59: both forms check the alphabet, and then give the one message of the byte. -/
theorem oneByteTextsAgree : Obligations.OneByteTextsAgree := by
  intro s b hinp hb
  have hne : s.inp ≠ [] := hinp ▸ List.cons_ne_nil b []
  cases hv : s.alphaValid with
  | false =>
    rw [exec_enca_of_no_alphabet hne hv]
    simp [exec, execEnc, hne, hv]
  | true =>
    have hlow : ∀ c ∈ s.inp, c.toNat < 128 := by simpa [hinp] using hb
    rw [exec_enc_of_alphabet hne hv, exec_enca_of_low_bytes hne hv hlow, encodeSelected_congr fun key => ?_]
    rw [hinp]
    exact encodeMessage_one_byte (signBit_eq_false_iff.2 hb)

end Sys2Proof.Machine
end

section
/-! SUPPORT. The errors (60_exceptions.md): the checks of each command in their order (R215), of which the first that fails is
the one error reported, and what an error leaves (R204). From these the causes of each kind follow (R207 to R212). -/

namespace Sys2Proof.Machine

open Sys2Proof.Claim

/-! ## The checks of a command, in order -/

/-- A check: the condition under which it fails, and the error it raises then. -/
abbrev Check := Prop × ErrorKind

/-- What checks made in order report: the error of the first one that fails, or nothing (R215). -/
def Reports (e : Option ErrorKind) : List Check → Prop
  | [] => e = none
  | (fails, k) :: rest => (fails ∧ e = some k) ∨ (¬ fails ∧ Reports e rest)

@[simp] theorem reports_nil {e : Option ErrorKind} : Reports e [] ↔ e = none := Iff.rfl

@[simp] theorem reports_cons {e : Option ErrorKind} {fails : Prop} {k : ErrorKind} {rest : List Check} :
    Reports e ((fails, k) :: rest) ↔ (fails ∧ e = some k) ∨ (¬ fails ∧ Reports e rest) := Iff.rfl

@[simp] theorem reports_unless_empty {k : ErrorKind} {l : List Byte} {rest : List Check} :
    Reports (some k) (if l = [] then [] else rest) ↔ l ≠ [] ∧ Reports (some k) rest := by
  by_cases h : l = [] <;> simp [h]

/-- One command reports at most one error (R215). -/
theorem Reports.unique {e e' : Option ErrorKind} {checks : List Check} (h : Reports e checks) (h' : Reports e' checks) :
    e = e' := by
  induction checks with
  | nil => exact Eq.trans h (Eq.symm h')
  | cons c rest ih =>
    rcases h with ⟨hc, rfl⟩ | ⟨hc, h⟩ <;> rcases h' with ⟨hc', rfl⟩ | ⟨hc', h'⟩
    · rfl
    · exact absurd hc hc'
    · exact absurd hc' hc
    · exact ih h h'

@[simp] theorem slots_general : slots .general = 3 := rfl

@[simp] theorem slots_ascii : slots .ascii = 6 := rfl

section

variable (s : State)

/-- An alphabet must be installed (R207). -/
@[simp] def alphabetCheck : Check := (s.alphaValid = false, .invalidAlphabet)

/-- With bluff off the fixed key must be a symbol (R209). -/
@[simp] def keyCheck : Check := (s.bluff = false ∧ readInv s.inv s.fixedKey = invalidMark, .invalidKey)

/-- Under the selected key no transformed value may have bit 7 set (R213). -/
@[simp] def escapeCheck (form : Form) : Check :=
  (∃ key t, selectKey s = .ok (key, t) ∧ encodeGroups form s.fwd s.xform.T key (pieces (slots form) s.inp) = none,
    .transformRangeEscape)

/-- The checks of a decoder (R160, R184). -/
def textChecks (form : Form) : List Check :=
  if s.inp = [] then [] else
    [alphabetCheck s, ((s.inp.length - 1) % (slots form + 1) = 1, .malformedMessage),
      (∃ b ∈ s.inp, readInv s.inv b = invalidMark, .unknownSymbol)]

/-- The checks of each command, in the order of R215; a codec command makes none on the empty sequence. -/
def checks : Instr → List Check
  | .setalpha => [(s.inp.length ≠ 64 ∨ ¬ s.inp.Nodup, .invalidAlphabet)]
  | .shuffle | .symbolof _ => [alphabetCheck s]
  | .valueof a => [alphabetCheck s, (readInv s.inv a = invalidMark, .unknownSymbol)]
  | .setxform => [(¬ UndoesOnDomain s.xcand s.params.probeKey, .invalidTransform)]
  | .xfwd _ _ | .xinv _ _ | .setbluff _ => []
  | .setkey a => [alphabetCheck s, (readInv s.inv a = invalidMark, .invalidKey)]
  | .nextkey => [alphabetCheck s, keyCheck s]
  | .enc => if s.inp = [] then [] else [alphabetCheck s, keyCheck s, escapeCheck s .general]
  | .enca => if s.inp = [] then [] else
    [alphabetCheck s, (∃ b ∈ s.inp, 128 ≤ b.toNat, .outOfRangeByte), keyCheck s, escapeCheck s .ascii]
  | .dec => textChecks s .general
  | .deca => textChecks s .ascii

end

/-! ## What a command ends in -/

/-- Where a command's result goes (R32, R33), and what an error of it clears. -/
def resultRegOf : Instr → ResultReg
  | .valueof _ | .symbolof _ | .nextkey | .xfwd _ _ | .xinv _ _ => .res
  | .enc | .dec | .enca | .deca => .out
  | .setalpha | .shuffle | .setxform | .setbluff _ | .setkey _ => .none

theorem writesRes_iff {i : Instr} : WritesRes i ↔ resultRegOf i = .res := by
  cases i <;> simp [WritesRes, resultRegOf]

theorem writesOut_iff {i : Instr} : WritesOut i ↔ resultRegOf i = .out := by
  cases i <;> simp [WritesOut, resultRegOf]

/-- The end of a command with the result register `r`: `OK`, or an error raised in the state before the command (R204), which
`TransformRangeEscape` in bluff mode finds with the key already drawn. -/
inductive Ends (s : State) (r : ResultReg) : Option ErrorKind → State → Prop
  | ok {t : State} (h : t.status = statusOk) : Ends s r none t
  | error (k : ErrorKind) : Ends s r (some k) (raise k r s)
  | escape (hb : s.bluff = true) :
    Ends s r (some .transformRangeEscape) (raise .transformRangeEscape r { s with rnd := (draw 64 s.rnd).2 })

theorem Ends.status_eq {s t : State} {r : ResultReg} {e : Option ErrorKind} (h : Ends s r e t) :
    t.status = outcomeCode e := by
  cases h with
  | ok h => exact h
  | error k => rfl
  | escape hb => rfl

theorem isSymbol_eq_false_iff {N : Vector Byte 256} {b : Byte} : isSymbol N b = false ↔ readInv N b = invalidMark := by
  rw [← Bool.not_eq_true, isSymbol_iff, not_not]

theorem signBit_eq_true_iff {b : Byte} : signBit b = true ↔ 128 ≤ b.toNat := by
  rw [← Bool.not_eq_false, signBit_eq_false_iff, Nat.not_lt]

/-- A selected key has passed the key check (R140). -/
theorem keyCheck_passes {s : State} {p : Byte × State} (hk : selectKey s = .ok p) : ¬ (keyCheck s).1 :=
  fun h => nomatch hk.symm.trans (selectKey_invalidKey_iff.2 h)

theorem encodeSelected_ends (form : Form) (s : State) :
    ∃ e, Reports e [keyCheck s, escapeCheck s form] ∧ Ends s .out e (encodeSelected form s) := by
  rcases encodeSelected_cases form s with ⟨hk, e⟩ | ⟨key, t, hk, h⟩
  · exact ⟨some .invalidKey, .inl ⟨selectKey_invalidKey_iff.1 hk, rfl⟩, e ▸ .error _⟩
  rcases h with ⟨hescape, e⟩ | ⟨blocks, hblocks, e⟩ <;> rw [e]
  · refine ⟨some .transformRangeEscape, .inr ⟨keyCheck_passes hk, .inl ⟨⟨key, t, hk, hescape⟩, rfl⟩⟩, ?_⟩
    rcases selectKey_ok hk with ⟨-, -, -, rfl⟩ | ⟨hb, -, rfl⟩
    · exact .error _
    · exact .escape hb
  · refine ⟨none, .inr ⟨keyCheck_passes hk, .inr ⟨?_, rfl⟩⟩, .ok rfl⟩
    rintro ⟨key', t', hk', hescape⟩
    cases hk.symm.trans hk'
    cases hescape.symm.trans hblocks

theorem exec_decoder_ends {form : Form} {s t : State} (h : exec form.decoder s = .next t) :
    ∃ e, Reports e (textChecks s form) ∧ Ends s .out e t := by
  rcases exec_decoder_cases form s with ⟨hempty, e⟩ | ⟨hne, e⟩ <;> cases h.symm.trans e
  · exact ⟨none, by simp [textChecks, hempty], .ok rfl⟩
  simp only [textChecks, hne, if_false, alphabetCheck, reports_cons, reports_nil, ← malformed_iff,
    ← isSymbol_eq_false_iff]
  rcases decodeChecked_cases form s with ⟨hv, e⟩ | ⟨hv, hm, e⟩ | ⟨hv, hm, hs, e⟩ | ⟨hv, hm, hs, e⟩ <;> rw [e]
  · exact ⟨some .invalidAlphabet, by simp [hv], .error _⟩
  · exact ⟨some .malformedMessage, by simp [hv, hm], .error _⟩
  · exact ⟨some .unknownSymbol, by simpa [hv, hm] using hs, .error _⟩
  · exact ⟨none, by simpa [hv, hm] using hs, .ok rfl⟩

/-- A well-formed command ends in what its checks report. -/
theorem exec_ends {i : Instr} {s t : State} (hi : i.wellFormed = true) (h : exec i s = .next t) :
    ∃ e, Reports e (checks s i) ∧ Ends s (resultRegOf i) e t := by
  cases i with
  | setalpha =>
    rcases execSetalpha_cases s with ⟨F, hF, hnodup, e⟩ | ⟨hbad, e⟩ <;> cases h.symm.trans e
    · have hlen : s.inp.length = 64 := by simp [← hF]
      exact ⟨none, by simp [checks, hlen, hnodup], .ok rfl⟩
    · exact ⟨_, .inl ⟨hbad, rfl⟩, .error _⟩
  | shuffle =>
    rcases execShuffle_cases s with ⟨hv, e⟩ | ⟨hv, e⟩ <;> cases h.symm.trans e
    · exact ⟨none, by simp [checks, hv], .ok rfl⟩
    · exact ⟨_, .inl ⟨hv, rfl⟩, .error _⟩
  | valueof a =>
    rcases execValueof_cases a s with ⟨hv, e⟩ | ⟨hv, ha, e⟩ | ⟨hv, ha, e⟩ <;> cases h.symm.trans e
    · exact ⟨_, .inl ⟨hv, rfl⟩, .error _⟩
    · exact ⟨some .unknownSymbol, by simp [checks, hv, isSymbol_eq_false_iff.1 ha], .error _⟩
    · exact ⟨none, by simp [checks, hv, isSymbol_iff.1 ha], .ok rfl⟩
  | symbolof a =>
    rcases execSymbolof_cases a s with ⟨ha, -⟩ | ⟨-, hv, e⟩ | ⟨-, hv, e⟩
    · exact absurd (of_decide_eq_true hi) (Nat.not_lt.2 ha)
    · cases h.symm.trans e
      exact ⟨_, .inl ⟨hv, rfl⟩, .error _⟩
    · cases h.symm.trans e
      exact ⟨none, by simp [checks, hv], .ok rfl⟩
  | setxform =>
    rcases execSetxform_cases s with ⟨hx, e⟩ | ⟨hx, e⟩ <;> cases h.symm.trans e
    · exact ⟨none, by simp [checks, hx], .ok rfl⟩
    · exact ⟨_, .inl ⟨hx, rfl⟩, .error _⟩
  | xfwd a b | xinv a b | setbluff enabled => cases h; exact ⟨none, rfl, .ok rfl⟩
  | setkey a =>
    rcases execSetkey_cases a s with ⟨hv, e⟩ | ⟨hv, ha, e⟩ | ⟨hv, ha, e⟩ <;> cases h.symm.trans e
    · exact ⟨_, .inl ⟨hv, rfl⟩, .error _⟩
    · exact ⟨some .invalidKey, by simp [checks, hv, isSymbol_eq_false_iff.1 ha], .error _⟩
    · exact ⟨none, by simp [checks, hv, isSymbol_iff.1 ha], .ok rfl⟩
  | nextkey =>
    rcases execNextkey_cases s with ⟨hv, e⟩ | ⟨hv, hk, e⟩ | ⟨hv, key, u, hk, e⟩ <;> cases h.symm.trans e
    · exact ⟨_, .inl ⟨hv, rfl⟩, .error _⟩
    · exact ⟨some .invalidKey, by simp [checks, hv, selectKey_invalidKey_iff.1 hk], .error _⟩
    · exact ⟨none, .inr ⟨by simp [hv], .inr ⟨keyCheck_passes hk, rfl⟩⟩, .ok rfl⟩
  | enc =>
    rcases execEnc_cases s with ⟨hempty, e⟩ | ⟨hne, hv, e⟩ | ⟨hne, hv, e⟩ <;> cases h.symm.trans e
    · exact ⟨none, by simp [checks, hempty], .ok rfl⟩
    · exact ⟨some .invalidAlphabet, by simp [checks, hne, hv], .error _⟩
    · obtain ⟨e, he, hends⟩ := encodeSelected_ends .general s
      exact ⟨e, by simpa only [checks, hne, if_false] using .inr ⟨by simp [hv], he⟩, hends⟩
  | dec => exact exec_decoder_ends (form := .general) h
  | enca =>
    rcases execEnca_cases s with ⟨hempty, e⟩ | ⟨hne, hv, e⟩ | ⟨hne, hv, hsign, e⟩ | ⟨hne, hv, hsign, e⟩ <;>
      cases h.symm.trans e
    · exact ⟨none, by simp [checks, hempty], .ok rfl⟩
    · exact ⟨some .invalidAlphabet, by simp [checks, hne, hv], .error _⟩
    · simp only [signBit_eq_true_iff] at hsign
      exact ⟨some .outOfRangeByte, by simp [checks, hne, hv, hsign], .error _⟩
    · simp only [signBit_eq_false_iff] at hsign
      obtain ⟨e, he, hends⟩ := encodeSelected_ends .ascii s
      have passed : ¬ ∃ b ∈ s.inp, 128 ≤ b.toNat := by simpa using hsign
      exact ⟨e, by simpa only [checks, hne, if_false] using .inr ⟨by simp [hv], .inr ⟨passed, he⟩⟩, hends⟩
  | deca => exact exec_decoder_ends (form := .ascii) h

/-- A well-formed command ends with the code of an error in `STATUS` exactly if its checks report that error. -/
theorem exec_status_iff {i : Instr} {s t : State} (hi : i.wellFormed = true) (h : exec i s = .next t) (k : ErrorKind) :
    t.status = errorCode k ↔ Reports (some k) (checks s i) := by
  obtain ⟨e, he, hends⟩ := exec_ends hi h
  rw [hends.status_eq]
  refine ⟨fun hk => ?_, fun hk => by rw [he.unique hk]; rfl⟩
  cases e with
  | none => exact absurd hk.symm (errorCode_range k).1
  | some k' => rwa [← errorCode_injective hk]

/-! ## STATUS -/

/-- Settles O18: the step either rejects the word or ends with the command's own code. -/
theorem statusIsAlwaysOneOfTheCodes : Obligations.StatusIsAlwaysOneOfTheCodes := by
  intro s t hp h
  rcases step_cases h with ⟨hidle, -⟩ | ⟨q, rest, -, ⟨-, -, rfl⟩ | ⟨i, u, -, hu, rfl⟩⟩
  · exact absurd hidle hp
  · exact (errorCode_range .illegalCommand).2
  · exact exec_statusLegal (t := u) hu

/-! ## What an error leaves -/

/-- Settles O21: an error is raised in the state before the command, or in that state after the one draw. -/
theorem errorsLeaveConfigurationIntact : Obligations.ErrorsLeaveConfigurationIntact := by
  intro i s t hi h hne
  obtain ⟨e, -, hends⟩ := exec_ends hi h
  rw [writesRes_iff, writesOut_iff]
  cases hends with
  | ok hok => exact absurd hok hne
  | error k => cases resultRegOf i <;> simp
  | escape hb =>
    have hdraw : ∃ j, OneDraw 64 s.rnd j (draw 64 s.rnd).2 := ⟨_, draw_oneDraw (by decide) s.rnd⟩
    cases resultRegOf i <;> simp [hb, hdraw, errorCode]

/-! ## The causes of each kind -/

theorem reports_unknownSymbol_iff {s : State} {form : Form} :
    Reports (some .unknownSymbol) (textChecks s form) ↔
    s.alphaValid = true ∧ (∃ b ∈ s.inp, readInv s.inv b = invalidMark) ∧
      (s.inp.length - 1) % (slots form + 1) ≠ 1 := by
  by_cases hne : s.inp = [] <;> simp [textChecks, hne, and_comm]

/-- The empty text is not malformed: it has no last block (R88, R211). -/
theorem reports_malformedMessage_iff {s : State} {form : Form} : Reports (some .malformedMessage) (textChecks s form) ↔
    s.alphaValid = true ∧ (s.inp.length - 1) % (slots form + 1) = 1 := by
  by_cases hne : s.inp = [] <;> simp [textChecks, hne]

/-- Settles O24: the commands that need an alphabet check it first, and `SETALPHA` checks its `IN`. -/
theorem invalidAlphabetCauses : Obligations.InvalidAlphabetCauses := by
  intro i s t hi h
  refine (exec_status_iff hi h .invalidAlphabet).trans ?_
  cases i with
  | setalpha => simp [checks, WritesOut]
  | shuffle | valueof _ | symbolof _ | setkey _ | nextkey => simp [checks]
  | enc | enca => simp [checks, WritesOut, and_comm]
  | dec | deca => simp [checks, textChecks, WritesOut, and_comm]
  | setxform | xfwd _ _ | xinv _ _ | setbluff _ => simp [checks, WritesOut]

/-- Settles O25: the decoders check the shape of the text and then its bytes, `VALUEOF` its operand, `ENCA` the range of its
bytes. -/
theorem dataErrorCauses : Obligations.DataErrorCauses := by
  intro i s t hi h
  refine ⟨(exec_status_iff hi h .unknownSymbol).trans ?_, (exec_status_iff hi h .malformedMessage).trans ?_,
    (exec_status_iff hi h .outOfRangeByte).trans ?_⟩
  · cases i
    case valueof a => simp [checks, invalidMark]
    case dec | deca => simp [checks, reports_unknownSymbol_iff, invalidMark]
    all_goals simp [checks]
  · cases i
    case dec | deca => simp [checks, reports_malformedMessage_iff]
    all_goals simp [checks]
  · cases i
    case enca => by_cases hne : s.inp = [] <;> simp [checks, hne]
    case dec | deca => simp [checks, textChecks]
    all_goals simp [checks]

/-- Settles O26: `SETKEY` checks its operand, the commands that select a key check the fixed one after their data, and
`SETXFORM` checks its candidate; an error leaves `XFORM` as it was. -/
theorem configurationErrorCauses : Obligations.ConfigurationErrorCauses := by
  intro i s t hi h
  refine ⟨(exec_status_iff hi h .invalidKey).trans ?_, (exec_status_iff hi h .invalidTransform).trans ?_, fun h4 => ?_⟩
  · cases i
    case setkey | nextkey => simp [checks, invalidMark]
    case enc | enca => by_cases hne : s.inp = [] <;> simp [checks, invalidMark, hne, and_assoc, and_comm]
    case dec | deca => simp [checks, textChecks]
    all_goals simp [checks]
  · cases i
    case setxform => simp [checks, UndoesOnDomain]
    case dec | deca => simp [checks, textChecks]
    all_goals simp [checks]
  · obtain ⟨-, -, -, hx, -⟩ := errorsLeaveConfigurationIntact i s t hi h (h4 ▸ by decide)
    exact hx

end Sys2Proof.Machine
end

section
/-! SUPPORT. No command faults and none is refused: every one completes with a code of the table (R245, R205). -/

namespace Sys2Proof.Machine

/-- Settles O10: every arm of `exec` answers a next state, whose `STATUS` is a code of the table, and no command writes a
parameter. -/
theorem everyCommandCompletes : Obligations.EveryCommandCompletes := by
  intro i s
  obtain ⟨t, h⟩ := exec_completes i s
  obtain ⟨hparams, -⟩ := exec_keeps_params_operands_port h
  exact ⟨t, h, exec_statusLegal h, hparams⟩

end Sys2Proof.Machine
end
